-- ==== Sys2Proof/Word.lean ====
section
/-!
DEFINITION. The machine's word, and the truncation every write of a 16-bit cell applies
(00_scope.md R4, R6).
-/

namespace Sys2Proof

/-- A register, a memory cell, an address: 16 bits, unsigned (R4 `XLEN`, `ALEN`; R6). -/
abbrev Word := BitVec 16

/-- One byte of the memory image; the core itself has no bytes (20_memory.md R53). -/
abbrev Byte := BitVec 8

/-- R6 `trunc16(v) = v mod 65536`, on non-negative integers. -/
def trunc16 (v : Nat) : Word := BitVec.ofNat 16 v

/-- R6 `trunc16` on any integer: the mathematical modulus, so `-1` gives `0xFFFF`. -/
def trunc16Int (v : Int) : Word := BitVec.ofInt 16 v

end Sys2Proof
end

