-- ==== Sys2Proof/Config.lean ====
section
/-!
DEFINITION. The parameters of the hardware (00_scope.md R4). All are fixed; the spec leaves no value
free, so no constant here is without a body. `CYCLES_WIDTH` is unbounded (log 7) and `IDX_SPLIT` is
0x0F (log 4, `Operand.ofCode` of Decode.lean).
-/

namespace Sys2Proof.Config

/-- `PC_RESET` (R4; 10_state.md R34). -/
def pcReset : Word := 0x0000#16

/-- `SP_RESET` (R4; 10_state.md R34). -/
def spReset : Word := 0xFFFF#16

/-- The image's length in bytes, two for each of the 65536 cells (70_reset_and_hazards.md R264). -/
def imageBytes : Nat := 0x20000

/-- What a byte of a cell that nothing has written reads as: reset leaves every cell 0 (R34). -/
def unlistedByte : Byte := 0x00#8

end Sys2Proof.Config
end

