-- ==== Sys2Proof/Syntax.lean ====
section
/-!
DEFINITION. The instruction set as syntax: registers, operand forms, and one constructor of `Instr`
for each row of opcode_table.json. An operand's next word is no part of the instruction: the
resolver reads it at `pc` while the instruction executes (41_operands.md R141).
-/

namespace Sys2Proof

/-- The eight general registers, in the order of their indices 0 to 7 (10_state.md R21). -/
inductive Reg where
  | A | B | C | X | Y | Z | I | J
  deriving DecidableEq, Repr

/-- The operand forms, one constructor a class (30_encoding.md R84); the class of
[register + next word] has two, since two of its codes select J (R95). -/
inductive Operand where
  /-- 0x00 to 0x07: the register itself (41_operands.md R142). -/
  | reg (r : Reg)
  /-- 0x08 to 0x0E: memory at [register]; there is no code for J (R143). -/
  | indirect (r : Reg)
  /-- 0x10 to 0x17: memory at [register + next word] (R144). -/
  | indexed (r : Reg)
  /-- 0x0F: memory at [J + next word], the other spelling of code 0x17 (R144, R95; log 4). -/
  | indexedJ
  /-- 0x18: memory at [sp], then sp + 1 (R145). -/
  | pop
  /-- 0x19: memory at [sp] (R146). -/
  | peek
  /-- 0x1A: sp - 1, then memory at [sp] (R147). -/
  | push
  /-- 0x1B: `sp` itself (R148). -/
  | sp
  /-- 0x1C: `pc` itself (R149). -/
  | pc
  /-- 0x1D: `o` itself (R150). -/
  | o
  /-- 0x1E: memory at [next word] (R151). -/
  | absolute
  /-- 0x1F: the next word as a literal (R152). -/
  | literal
  /-- 0x20 to 0x3F: the literal `code - 0x20`, 0 to 31 (R153). -/
  | short (n : BitVec 5)
  deriving DecidableEq, Repr

/-- One constructor per row of opcode_table.json. Basic instructions take `a` (the destination) and
`b`; JSR and the undefined extended opcodes take the one operand `a`. An UNDEF row carries the free
bits `e` of its row's pattern, so its extended opcode is the row's fixed bits followed by `e`. -/
inductive Instr where
  /-- 42_basic_alu.md R171. -/
  | set (a b : Operand)
  /-- R172. -/
  | add (a b : Operand)
  /-- R173. -/
  | sub (a b : Operand)
  /-- R174. -/
  | mul (a b : Operand)
  /-- R175. -/
  | div (a b : Operand)
  /-- R176. -/
  | mod (a b : Operand)
  /-- R177. -/
  | shl (a b : Operand)
  /-- R178. -/
  | shr (a b : Operand)
  /-- R179. -/
  | and (a b : Operand)
  /-- R180. -/
  | bor (a b : Operand)
  /-- R181. -/
  | xor (a b : Operand)
  /-- 43_conditional.md R201. -/
  | ife (a b : Operand)
  /-- R202. -/
  | ifn (a b : Operand)
  /-- R203. -/
  | ifg (a b : Operand)
  /-- R204. -/
  | ifb (a b : Operand)
  /-- 44_extended.md R221. -/
  | jsr (a : Operand)
  /-- R222, extended opcode 000000. -/
  | undefExt00 (a : Operand)
  /-- R222, extended opcode 00001e. -/
  | undefExt0203 (e : BitVec 1) (a : Operand)
  /-- R222, extended opcode 0001ee. -/
  | undefExt0407 (e : BitVec 2) (a : Operand)
  /-- R222, extended opcode 001eee. -/
  | undefExt080F (e : BitVec 3) (a : Operand)
  /-- R222, extended opcode 01eeee. -/
  | undefExt101F (e : BitVec 4) (a : Operand)
  /-- R222, extended opcode 1eeeee. -/
  | undefExt203F (e : BitVec 5) (a : Operand)
  deriving DecidableEq, Repr

end Sys2Proof
end

