-- ==== Sys2Proof/WellFormed.lean ====
section
/-!
DEFINITION. Which terms of `Instr` some instruction word stands for. The types already bound every
field (30_encoding.md R91: no operand code is illegal); one form of the syntax has no code, `[J]`
without a displacement (R95), and the check refuses it in every operand position.
-/

namespace Sys2Proof

/-- R95: "there is no [J] mode without a displacement". -/
def Operand.wf : Operand → Bool
  | .indirect r => decide (r ≠ .J)
  | .reg _ | .indexed _ | .indexedJ | .pop | .peek | .push | .sp | .pc | .o | .absolute | .literal
  | .short _ => true

/-- The operands of an instruction, in the order their next words follow the instruction word
(30_encoding.md R87). An extended opcode is no operand (R82). -/
def Instr.operands : Instr → List Operand
  | .set a b | .add a b | .sub a b | .mul a b | .div a b | .mod a b | .shl a b | .shr a b
  | .and a b | .bor a b | .xor a b | .ife a b | .ifn a b | .ifg a b | .ifb a b => [a, b]
  | .jsr a | .undefExt00 a | .undefExt0203 _ a | .undefExt0407 _ a | .undefExt080F _ a
  | .undefExt101F _ a | .undefExt203F _ a => [a]

/-- An instruction is well formed when each of its operands has an operand code. -/
def Instr.wf (i : Instr) : Bool := i.operands.all Operand.wf

end Sys2Proof
end

