-- ==== Sys2Proof/Decode.lean ====
section
/-!
DEFINITION. The instruction_decoder: the fields of an instruction word, operand codes, decoding
(total on words; on bytes it rejects a truncated stream by name), instruction length, and the
encoder written from the same tables (30_encoding.md R80 to R95).
-/

namespace Sys2Proof

/-! ## Registers and operand codes -/

/-- The register that the low three bits of an operand code select (30_encoding.md R95; 10_state.md
R21; log 3). -/
def Reg.ofIndex (i : BitVec 3) : Reg :=
  match i.toNat with
  | 0 => .A
  | 1 => .B
  | 2 => .C
  | 3 => .X
  | 4 => .Y
  | 5 => .Z
  | 6 => .I
  | _ => .J

/-- The register's index (10_state.md R21). -/
def Reg.index : Reg → BitVec 3
  | .A => 0
  | .B => 1
  | .C => 2
  | .X => 3
  | .Y => 4
  | .Z => 5
  | .I => 6
  | .J => 7

/-- The operand form of a 6-bit operand code; all 64 codes have one (R84, R95). -/
def Operand.ofCode (c : BitVec 6) : Operand :=
  let r := Reg.ofIndex (c.extractLsb' 0 3)
  if c ≤ 0x07#6 then .reg r
  else if c ≤ 0x0E#6 then .indirect r
  else if c = 0x0F#6 then .indexedJ
  else if c ≤ 0x17#6 then .indexed r
  else if c = 0x18#6 then .pop
  else if c = 0x19#6 then .peek
  else if c = 0x1A#6 then .push
  else if c = 0x1B#6 then .sp
  else if c = 0x1C#6 then .pc
  else if c = 0x1D#6 then .o
  else if c = 0x1E#6 then .absolute
  else if c = 0x1F#6 then .literal
  else .short (c.extractLsb' 0 5)

/-- R85 `NW`: the operand consumes one next word. -/
def Operand.takesNextWord : Operand → Bool
  | .indexed _ | .indexedJ | .absolute | .literal => true
  | .reg _ | .indirect _ | .pop | .peek | .push | .sp | .pc | .o | .short _ => false

/-- How many next words follow the instruction word (R86). -/
def Instr.nextWords (i : Instr) : Nat := i.operands.countP Operand.takesNextWord

/-- R86: an instruction is 1, 2 or 3 words long. -/
def Instr.length (i : Instr) : Nat := 1 + i.nextWords

/-! ## Decoding an instruction word -/

/-- R80 `f_op = w[3:0]`. -/
def fieldOp (w : Word) : BitVec 4 := w.extractLsb' 0 4

/-- R80 `f_a = w[9:4]`. -/
def fieldA (w : Word) : BitVec 6 := w.extractLsb' 4 6

/-- R80 `f_b = w[15:10]`. -/
def fieldB (w : Word) : BitVec 6 := w.extractLsb' 10 6

/-- The extended format: `e` is the extended opcode, `a` the one operand (R82, R89, R90, R103). The codes
`e` follow R103's masks, 63 undefined ones, each with all 64 operand codes; not the rules' count of 960
words (DEDUCED, log 14). -/
def decodeExtended (e : BitVec 6) (a : Operand) : Instr :=
  if e = 0x00#6 then .undefExt00 a
  else if e = 0x01#6 then .jsr a
  else if e ≤ 0x03#6 then .undefExt0203 (e.extractLsb' 0 1) a
  else if e ≤ 0x07#6 then .undefExt0407 (e.extractLsb' 0 2) a
  else if e ≤ 0x0F#6 then .undefExt080F (e.extractLsb' 0 3) a
  else if e ≤ 0x1F#6 then .undefExt101F (e.extractLsb' 0 4) a
  else .undefExt203F (e.extractLsb' 0 5) a

/-- The decoder, on the instruction word alone; every word has an instruction (R83, R86, R88; the
numbering is log 3). Where R83's counts contradict R80's fields, the fields are followed: every word with
`f_op = 0` is extended, 4096 of them, and 4032 are undefined (DEDUCED, log 14). The last arm is
`f_op = 0xF`, the only value of four bits left. -/
def decodeWord (w : Word) : Instr :=
  let a := Operand.ofCode (fieldA w)
  let b := Operand.ofCode (fieldB w)
  match (fieldOp w).toNat with
  | 0x0 => decodeExtended (fieldA w) b
  | 0x1 => .set a b
  | 0x2 => .add a b
  | 0x3 => .sub a b
  | 0x4 => .mul a b
  | 0x5 => .div a b
  | 0x6 => .mod a b
  | 0x7 => .shl a b
  | 0x8 => .shr a b
  | 0x9 => .and a b
  | 0xA => .bor a b
  | 0xB => .xor a b
  | 0xC => .ife a b
  | 0xD => .ifn a b
  | 0xE => .ifg a b
  | _ => .ifb a b

/-! ## Bytes: the image's big-endian words -/

/-- A word's bytes in the image, bits 15:8 first (20_memory.md R53). -/
def wordBytes (w : Word) : List Byte := [w.extractLsb' 8 8, w.extractLsb' 0 8]

/-- The word of two image bytes (R53). -/
def wordOfBytes (hi lo : Byte) : Word := hi ++ lo

/-- Why a byte stream holds no whole instruction (log 13: the model's own names). In memory this cannot
happen: every cell exists. -/
inductive DecodeError where
  /-- Fewer than the two bytes of an instruction word are left. -/
  | truncatedInstructionWord
  /-- The instruction word is there, but not all of its next words. -/
  | truncatedNextWord
  deriving DecidableEq, Repr

/-- Takes `n` words off a byte stream. -/
def takeWords : Nat → List Byte → Option (List Word × List Byte)
  | 0, bs => some ([], bs)
  | n + 1, hi :: lo :: bs => (takeWords n bs).map fun r => (wordOfBytes hi lo :: r.1, r.2)
  | _ + 1, _ => none

/-- One instruction off a byte stream: the instruction, its next words (a's first, R87), and the
rest of the stream. -/
def decodeBytes : List Byte → Except DecodeError (Instr × List Word × List Byte)
  | hi :: lo :: bs =>
    let i := decodeWord (wordOfBytes hi lo)
    match takeWords i.nextWords bs with
    | some (ws, rest) => .ok (i, ws, rest)
    | none => .error .truncatedNextWord
  | _ => .error .truncatedInstructionWord

/-- The three words (the longest instruction, R86) of an instruction given as the opcode table
numbers its bits: bit 0 is the least significant of the first word; bits above `nbits` are 0. -/
def tableWords (nbits w : Nat) : List Word :=
  let v := w % 2 ^ nbits
  [trunc16 v, trunc16 (v >>> 16), trunc16 (v >>> 32)]

/-- The instruction the decoder reads from a word of the opcode table. -/
def decodeTableWord (nbits w : Nat) : Option Instr :=
  match decodeBytes ((tableWords nbits w).flatMap wordBytes) with
  | .ok (i, _, _) => some i
  | .error _ => none

/-! ## The encoder -/

/-- The operand code of an operand form (R84, R95). `[J]` has none; it is not well formed, and the
number given for it is no code of that form. -/
def Operand.code : Operand → BitVec 6
  | .reg r => 0b000#3 ++ r.index
  | .indirect r => 0b001#3 ++ r.index
  | .indexed r => 0b010#3 ++ r.index
  | .indexedJ => 0x0F#6
  | .pop => 0x18#6
  | .peek => 0x19#6
  | .push => 0x1A#6
  | .sp => 0x1B#6
  | .pc => 0x1C#6
  | .o => 0x1D#6
  | .absolute => 0x1E#6
  | .literal => 0x1F#6
  | .short n => 0b1#1 ++ n

/-- R80: `f_b` in bits 15:10, `f_a` in 9:4, `f_op` in 3:0. -/
def packWord (b a : BitVec 6) (op : BitVec 4) : Word := b ++ a ++ op

/-- The instruction word of an instruction (R81, R82, R88, R89, R103). -/
def Instr.encodeWord : Instr → Word
  | .set a b => packWord b.code a.code 0x1#4
  | .add a b => packWord b.code a.code 0x2#4
  | .sub a b => packWord b.code a.code 0x3#4
  | .mul a b => packWord b.code a.code 0x4#4
  | .div a b => packWord b.code a.code 0x5#4
  | .mod a b => packWord b.code a.code 0x6#4
  | .shl a b => packWord b.code a.code 0x7#4
  | .shr a b => packWord b.code a.code 0x8#4
  | .and a b => packWord b.code a.code 0x9#4
  | .bor a b => packWord b.code a.code 0xA#4
  | .xor a b => packWord b.code a.code 0xB#4
  | .ife a b => packWord b.code a.code 0xC#4
  | .ifn a b => packWord b.code a.code 0xD#4
  | .ifg a b => packWord b.code a.code 0xE#4
  | .ifb a b => packWord b.code a.code 0xF#4
  | .jsr a => packWord a.code 0x01#6 0x0#4
  | .undefExt00 a => packWord a.code 0x00#6 0x0#4
  | .undefExt0203 e a => packWord a.code (0b00001#5 ++ e) 0x0#4
  | .undefExt0407 e a => packWord a.code (0b0001#4 ++ e) 0x0#4
  | .undefExt080F e a => packWord a.code (0b001#3 ++ e) 0x0#4
  | .undefExt101F e a => packWord a.code (0b01#2 ++ e) 0x0#4
  | .undefExt203F e a => packWord a.code (0b1#1 ++ e) 0x0#4

/-! ## The rows of the opcode table -/

/-- `mask` of the instruction's row of opcode_table.json (30_encoding.md R103). -/
def Instr.rowMask : Instr → Word
  | .set _ _ | .add _ _ | .sub _ _ | .mul _ _ | .div _ _ | .mod _ _ | .shl _ _ | .shr _ _
  | .and _ _ | .bor _ _ | .xor _ _ | .ife _ _ | .ifn _ _ | .ifg _ _ | .ifb _ _ => 0x000F#16
  | .jsr _ | .undefExt00 _ => 0x03FF#16
  | .undefExt0203 _ _ => 0x03EF#16
  | .undefExt0407 _ _ => 0x03CF#16
  | .undefExt080F _ _ => 0x038F#16
  | .undefExt101F _ _ => 0x030F#16
  | .undefExt203F _ _ => 0x020F#16

/-- `match` of the instruction's row (R103). -/
def Instr.rowMatch : Instr → Word
  | .set _ _ => 0x0001#16
  | .add _ _ => 0x0002#16
  | .sub _ _ => 0x0003#16
  | .mul _ _ => 0x0004#16
  | .div _ _ => 0x0005#16
  | .mod _ _ => 0x0006#16
  | .shl _ _ => 0x0007#16
  | .shr _ _ => 0x0008#16
  | .and _ _ => 0x0009#16
  | .bor _ _ => 0x000A#16
  | .xor _ _ => 0x000B#16
  | .ife _ _ => 0x000C#16
  | .ifn _ _ => 0x000D#16
  | .ifg _ _ => 0x000E#16
  | .ifb _ _ => 0x000F#16
  | .jsr _ => 0x0010#16
  | .undefExt00 _ => 0x0000#16
  | .undefExt0203 _ _ => 0x0020#16
  | .undefExt0407 _ _ => 0x0040#16
  | .undefExt080F _ _ => 0x0080#16
  | .undefExt101F _ _ => 0x0100#16
  | .undefExt203F _ _ => 0x0200#16

/-! ## Instructions as words and bytes -/

/-- All the words of an instruction: the instruction word, then its next words (R87). -/
def encode (i : Instr) (nws : List Word) : List Word := i.encodeWord :: nws

/-- The image bytes of an instruction and its next words. -/
def encodeBytes (i : Instr) (nws : List Word) : List Byte := (encode i nws).flatMap wordBytes

end Sys2Proof
end

