-- ==== Sys2Proof/Machine/State.lean ====
section
/-!
DEFINITION. Everything the spec gives the machine, as plain data (10_state.md R20: "the complete
state of the block is the following, and nothing else"), and the state after reset (R34).
-/

namespace Sys2Proof.Machine

/-- The 65536 cells (20_memory.md R50), held as the bytes of the image that would load them: byte `2k`
is bits 15:8 of cell `k`, byte `2k + 1` bits 7:0 (R53, R264; log 1). A list of address and byte in
one form, `Memory.wf`; a byte not listed is `Config.unlistedByte`. -/
abbrev Memory := List Host.Cell

/-- The canonical form from byte address `lo` on: addresses strictly rising and inside the image, no
entry equal to what an unlisted address reads as. -/
def Memory.wfFrom : Nat → Memory → Bool
  | _, [] => true
  | lo, (k, v) :: m =>
    decide (lo ≤ k) && decide (k < Config.imageBytes) && decide (v ≠ Config.unlistedByte)
      && Memory.wfFrom (k + 1) m

/-- The canonical form: equal memories are equal lists. -/
def Memory.wf (m : Memory) : Bool := Memory.wfFrom 0 m

/-- The eight general registers (R21). None is hard-wired, none is banked (R23). -/
structure RegFile where
  a : Word
  b : Word
  c : Word
  x : Word
  y : Word
  z : Word
  i : Word
  j : Word
  deriving DecidableEq, Repr

/-- The fault latch (R32; 60_exceptions.md R232; log 2). -/
inductive FaultLatch where
  /-- Cause 0, no fault. -/
  | none
  /-- Cause 1: `code` is the extended opcode that has no handler, `addr` the address its instruction
  word was fetched from. -/
  | undefinedExtendedOpcode (code : BitVec 6) (addr : Word)
  deriving DecidableEq, Repr

/-- The state (R20). -/
structure State where
  /-- `x[0..7]` (R21). -/
  regs : RegFile
  /-- The program counter (R24). -/
  pc : Word
  /-- The stack pointer (R27). -/
  sp : Word
  /-- The overflow register (R29). -/
  o : Word
  /-- `memory[0..65535]` (20_memory.md R50). -/
  mem : Memory
  /-- The skip flag (R30). -/
  skipping : Bool
  /-- The cycle counter, unbounded (R31; log 7). -/
  cycles : Nat
  /-- The fault latch (R32). -/
  fault : FaultLatch
  deriving DecidableEq, Repr

/-- Reasons for which a step would end with no next state. There are none: the machine's one fault is
state, the latch, and the step that raises it has a next state (60_exceptions.md R233, R234); every
other access and operation is total (R230). Raised by nobody; safe. -/
inductive Fault
  deriving DecidableEq, Repr

/-- Reasons for which an instruction would have no meaning here. -/
inductive Refusal where
  /-- An instruction not modelled yet: raised only by an arm of `exec` that names it. No arm does.
  Safe. -/
  | notModelled (mnemonic : String)
  deriving DecidableEq, Repr

/-- Every general register 0 (R34). -/
def RegFile.reset : RegFile :=
  { a := 0x0000#16, b := 0x0000#16, c := 0x0000#16, x := 0x0000#16,
    y := 0x0000#16, z := 0x0000#16, i := 0x0000#16, j := 0x0000#16 }

/-- Every piece of state at its reset value (R34; 70_reset_and_hazards.md R260). -/
def State.reset : State :=
  { regs := RegFile.reset
    pc := Config.pcReset
    sp := Config.spReset
    o := 0x0000#16
    mem := []
    skipping := false
    cycles := 0
    fault := .none }

end Sys2Proof.Machine
end

