-- ==== Sys2Proof/Machine/Ops.lean ====
section
/-!
DEFINITION. The named operations over memory and registers, locations and their two accessors, and
the raising of the one fault (00_scope.md R8, R9; 60_exceptions.md R233). There is no return from a
fault (R236), so none stands beside it.
-/

namespace Sys2Proof.Machine

/-! ## Memory -/

/-- The byte at an image byte address. -/
def Memory.readByte : Memory → Nat → Byte
  | [], _ => Config.unlistedByte
  | (k, v) :: m, n => if k = n then v else Memory.readByte m n

/-- The memory without any entry for a byte address. -/
def Memory.eraseByte : Memory → Nat → Memory
  | [], _ => []
  | (k, v) :: m, n => if k = n then Memory.eraseByte m n else (k, v) :: Memory.eraseByte m n

/-- A new entry, put before the first entry of a higher address. -/
def Memory.insertByte : Memory → Nat → Byte → Memory
  | [], n, b => [(n, b)]
  | (k, v) :: m, n, b =>
    if n < k then (n, b) :: (k, v) :: m else (k, v) :: Memory.insertByte m n b

/-- Writes one byte and keeps the canonical form: the byte an unlisted address reads as is not
listed. -/
def Memory.writeByte (m : Memory) (n : Nat) (b : Byte) : Memory :=
  if b = Config.unlistedByte then m.eraseByte n else (m.eraseByte n).insertByte n b

/-- The content of a cell. Every address is a cell, so nothing can go wrong (20_memory.md R51). -/
def Memory.readWord (m : Memory) (addr : Word) : Word :=
  wordOfBytes (m.readByte (2 * addr.toNat)) (m.readByte (2 * addr.toNat + 1))

/-- A cell takes a value; no other cell changes (R57). -/
def Memory.writeWord (m : Memory) (addr : Word) (v : Word) : Memory :=
  (m.writeByte (2 * addr.toNat) (v.extractLsb' 8 8)).writeByte (2 * addr.toNat + 1)
    (v.extractLsb' 0 8)

/-- The canonical memory of a run of bytes that starts at byte address `n`. -/
def Memory.ofBytesFrom : Nat → List Byte → Memory
  | _, [] => []
  | n, b :: bs =>
    if b = Config.unlistedByte then Memory.ofBytesFrom (n + 1) bs
    else (n, b) :: Memory.ofBytesFrom (n + 1) bs

/-! ## Registers -/

/-- `x[i]` (10_state.md R21, R22). -/
def RegFile.get (f : RegFile) : Reg → Word
  | .A => f.a
  | .B => f.b
  | .C => f.c
  | .X => f.x
  | .Y => f.y
  | .Z => f.z
  | .I => f.i
  | .J => f.j

/-- `x[i] <- v` (R22). -/
def RegFile.set (f : RegFile) (r : Reg) (v : Word) : RegFile :=
  match r with
  | .A => { f with a := v }
  | .B => { f with b := v }
  | .C => { f with c := v }
  | .X => { f with x := v }
  | .Y => { f with y := v }
  | .Z => { f with z := v }
  | .I => { f with i := v }
  | .J => { f with j := v }

/-! ## The state's primitives (00_scope.md R8) -/

/-- `x[i]`. -/
def State.readReg (s : State) (r : Reg) : Word := s.regs.get r

/-- `x[i] <- v`. -/
def State.writeReg (s : State) (r : Reg) (v : Word) : State := { s with regs := s.regs.set r v }

/-- `pc <- v`. -/
def State.writePc (s : State) (v : Word) : State := { s with pc := v }

/-- `sp <- v`. -/
def State.writeSp (s : State) (v : Word) : State := { s with sp := v }

/-- `o <- v`. -/
def State.writeO (s : State) (v : Word) : State := { s with o := v }

/-- `MemRead(addr, 1)`. -/
def State.readMem (s : State) (addr : Word) : Word := s.mem.readWord addr

/-- `MemWrite(addr, 1, v)`. -/
def State.writeMem (s : State) (addr : Word) (v : Word) : State :=
  { s with mem := s.mem.writeWord addr v }

/-- `skipping <- b`. -/
def State.setSkipping (s : State) (b : Bool) : State := { s with skipping := b }

/-- `cycles <- cycles + n`. -/
def State.charge (s : State) (n : Nat) : State := { s with cycles := s.cycles + n }

/-- `pc <- pc + 1`, which wraps from 0xFFFF to 0 (10_state.md R25). -/
def State.advancePc (s : State) : State := s.writePc (s.pc + 1)

/-- `raise UndefinedExtendedOpcode(code, addr)`: the latch takes the fault and the step ends; nothing
is saved elsewhere and control goes nowhere (60_exceptions.md R233; log 2). -/
def State.raiseUndefinedExtendedOpcode (s : State) (code : BitVec 6) (addr : Word) : State :=
  { s with fault := .undefinedExtendedOpcode code addr }

/-! ## Locations (00_scope.md R9) -/

/-- What the resolver returns: a place, or a read-only literal. -/
inductive Loc where
  | reg (r : Reg)
  | mem (addr : Word)
  | pc
  | sp
  | ov
  | imm (v : Word)
  deriving DecidableEq, Repr

/-- R9 `LocRead`. -/
def State.locRead (s : State) : Loc → Word
  | .reg r => s.readReg r
  | .mem addr => s.readMem addr
  | .pc => s.pc
  | .sp => s.sp
  | .ov => s.o
  | .imm v => v

/-- R9 `LocWrite`: a write to a literal does nothing (41_operands.md R154). -/
def State.locWrite (s : State) (l : Loc) (v : Word) : State :=
  match l with
  | .reg r => s.writeReg r v
  | .mem addr => s.writeMem addr v
  | .pc => s.writePc v
  | .sp => s.writeSp v
  | .ov => s.writeO v
  | .imm _ => s

/-- A write of `o` that an instruction makes or not: `none` leaves `o` as it is (42_basic_alu.md
R183). -/
def State.writeOverflow (s : State) : Option Word → State
  | some v => s.writeO v
  | none => s

end Sys2Proof.Machine
end

