-- ==== Sys2Proof/Machine/Flags.lean ====
section
/-!
DEFINITION. What each arithmetic and shift instruction leaves in the overflow register `o`, computed
on exact integers from the operand values (42_basic_alu.md R172 to R178, the table of R183; 00_scope.md
R6), and the conditions of the four conditionals (43_conditional.md R201 to R204). `none` is "`o` is
left as it was". There is no other flag (R182).
-/

namespace Sys2Proof.Machine

/-- R172: 1 on an unsigned carry; otherwise unchanged. -/
def addOverflow (va vb : Word) : Option Word :=
  if va.toNat + vb.toNat > 0xFFFF then some 0x0001#16 else none

/-- R173: 0xFFFF on a borrow; otherwise unchanged. -/
def subOverflow (va vb : Word) : Option Word :=
  if (va.toNat : Int) - (vb.toNat : Int) < 0 then some 0xFFFF#16 else none

/-- R174: the high half of the product, always written. -/
def mulOverflow (va vb : Word) : Option Word := some (trunc16 ((va.toNat * vb.toNat) >>> 16))

/-- R175: the first 16 fractional bits of the quotient, or 0 for the divisor 0; always written. -/
def divOverflow (va vb : Word) : Option Word :=
  if vb.toNat = 0 then some 0x0000#16 else some (trunc16 ((va.toNat <<< 16) / vb.toNat))

/-- R176: 0 for the divisor 0; otherwise unchanged. -/
def modOverflow (_va vb : Word) : Option Word := if vb.toNat = 0 then some 0x0000#16 else none

/-- R177: the bits shifted out to the left, always written. The amount is all of `vb` (log 6). -/
def shlOverflow (va vb : Word) : Option Word := some (trunc16 ((va.toNat <<< vb.toNat) >>> 16))

/-- R178: the bits shifted out to the right, always written. The amount is all of `vb` (log 6). -/
def shrOverflow (va vb : Word) : Option Word := some (trunc16 ((va.toNat <<< 16) >>> vb.toNat))

/-- R201. -/
def ifeCondition (va vb : Word) : Bool := decide (va = vb)

/-- R202. -/
def ifnCondition (va vb : Word) : Bool := decide (va ≠ vb)

/-- R203, on unsigned values (log 6). -/
def ifgCondition (va vb : Word) : Bool := decide (va.toNat > vb.toNat)

/-- R204. -/
def ifbCondition (va vb : Word) : Bool := decide (va &&& vb ≠ 0x0000#16)

end Sys2Proof.Machine
end

