-- ==== Sys2Proof/Machine/Operands.lean ====
section
/-!
DEFINITION. The operand_resolver: every operand form, its location and its side effects on `pc`, `sp`
and `cycles` (41_operands.md R140 to R153), the skip path's replacement of it (40_dispatch.md R118),
and the sampling of the two operands of a basic instruction (R121, R122).
-/

namespace Sys2Proof.Machine

/-- R141 `NextWord()`: the word at `pc`, and `pc` past it. -/
def nextWord (s : State) : Word × State := (s.readMem s.pc, s.advancePc)

/-- R144: memory at [register + next word]; the sum wraps. -/
def resolveIndexed (r : Reg) (s : State) : Loc × State :=
  let n := nextWord (s.charge 1)
  (.mem (s.readReg r + n.1), n.2)

/-- R140 `Resolve`: the location an operand designates, and the state after its side effects. -/
def resolve : Operand → State → Loc × State
  | .reg r, s => (.reg r, s)
  | .indirect r, s => (.mem (s.readReg r), s.charge 1)
  | .indexed r, s => resolveIndexed r s
  | .indexedJ, s => resolveIndexed .J s
  | .pop, s => (.mem s.sp, s.writeSp (s.sp + 1))
  | .peek, s => (.mem s.sp, s)
  | .push, s =>
    let s' := s.writeSp (s.sp - 1)
    (.mem s'.sp, s')
  | .sp, s => (.sp, s)
  | .pc, s => (.pc, s)
  | .o, s => (.ov, s)
  | .absolute, s =>
    let n := nextWord (s.charge 1)
    (.mem n.1, n.2)
  | .literal, s =>
    let n := nextWord (s.charge 1)
    (.imm n.1, n.2)
  | .short n, s => (.imm (n.setWidth 16), s)

/-- 40_dispatch.md R118 `SkipAdvance`: a next word is stepped over, unread; nothing else changes. -/
def skipAdvance (op : Operand) (s : State) : State :=
  if op.takesNextWord then s.advancePc else s

/-- The two operands of a basic instruction, ready for its handler: where `a` is, both values, and
the state after both resolutions. -/
structure Sampled where
  la : Loc
  va : Word
  vb : Word
  st : State
  deriving DecidableEq, Repr

/-- R121: `a` is resolved whole before `b`. R122: both values are read once, after both resolutions
and before any write (log 5). -/
def sample (a b : Operand) (s : State) : Sampled :=
  let ra := resolve a s
  let rb := resolve b ra.2
  { la := ra.1, va := rb.2.locRead ra.1, vb := rb.2.locRead rb.1, st := rb.2 }

/-- 70_reset_and_hazards.md R281, right half: what resolving an operand adds to `cycles`. The
resolver's arms charge it as their own rules say; claims name it. -/
def operandCost : Operand → Nat
  | .indirect _ | .indexed _ | .indexedJ | .absolute | .literal => 1
  | .reg _ | .pop | .peek | .push | .sp | .pc | .o | .short _ => 0

end Sys2Proof.Machine
end

