-- ==== Sys2Proof/Machine/Alu.lean ====
section
/-!
DEFINITION. The eleven writing basic instructions (42_basic_alu.md R170 to R181). A meaning starts
with `pc` past the instruction word, after the step's fetch (40_dispatch.md R112, R114; log 8). Each
resolves and samples its operands, computes on exact integers, writes in its rule's order (R123) and
charges its cost.
-/

namespace Sys2Proof.Machine

/-- The writes of SET, ADD, SUB, MUL, DIV, MOD, AND, BOR, XOR: the result to `a`, then `o`
(40_dispatch.md R123; log 5). -/
def writeResultThenOverflow (p : Sampled) (result : Word) (overflow : Option Word) : State :=
  (p.st.locWrite p.la result).writeOverflow overflow

/-- The writes of SHL and SHR: `o`, then the result to `a` (R123; log 5). -/
def writeOverflowThenResult (p : Sampled) (result : Word) (overflow : Option Word) : State :=
  (p.st.writeOverflow overflow).locWrite p.la result

/-- R171 SET. -/
def execSet (a b : Operand) (s : State) : Host.Outcome State Fault Refusal :=
  let p := sample a b s
  .next ((writeResultThenOverflow p p.vb none).charge 1)

/-- R172 ADD. -/
def execAdd (a b : Operand) (s : State) : Host.Outcome State Fault Refusal :=
  let p := sample a b s
  let r := trunc16 (p.va.toNat + p.vb.toNat)
  .next ((writeResultThenOverflow p r (addOverflow p.va p.vb)).charge 2)

/-- R173 SUB. -/
def execSub (a b : Operand) (s : State) : Host.Outcome State Fault Refusal :=
  let p := sample a b s
  let r := trunc16Int ((p.va.toNat : Int) - (p.vb.toNat : Int))
  .next ((writeResultThenOverflow p r (subOverflow p.va p.vb)).charge 2)

/-- R174 MUL. -/
def execMul (a b : Operand) (s : State) : Host.Outcome State Fault Refusal :=
  let p := sample a b s
  let r := trunc16 (p.va.toNat * p.vb.toNat)
  .next ((writeResultThenOverflow p r (mulOverflow p.va p.vb)).charge 2)

/-- R175 DIV: the divisor 0 gives 0 and does not trap. -/
def execDiv (a b : Operand) (s : State) : Host.Outcome State Fault Refusal :=
  let p := sample a b s
  let r := if p.vb.toNat = 0 then 0x0000#16 else trunc16 (p.va.toNat / p.vb.toNat)
  .next ((writeResultThenOverflow p r (divOverflow p.va p.vb)).charge 3)

/-- R176 MOD: the divisor 0 gives 0 and does not trap. -/
def execMod (a b : Operand) (s : State) : Host.Outcome State Fault Refusal :=
  let p := sample a b s
  let r := if p.vb.toNat = 0 then 0x0000#16 else trunc16 (p.va.toNat % p.vb.toNat)
  .next ((writeResultThenOverflow p r (modOverflow p.va p.vb)).charge 3)

/-- R177 SHL. -/
def execShl (a b : Operand) (s : State) : Host.Outcome State Fault Refusal :=
  let p := sample a b s
  let r := trunc16 (p.va.toNat <<< p.vb.toNat)
  .next ((writeOverflowThenResult p r (shlOverflow p.va p.vb)).charge 2)

/-- R178 SHR, logical. -/
def execShr (a b : Operand) (s : State) : Host.Outcome State Fault Refusal :=
  let p := sample a b s
  let r := trunc16 (p.va.toNat >>> p.vb.toNat)
  .next ((writeOverflowThenResult p r (shrOverflow p.va p.vb)).charge 2)

/-- R179 AND. -/
def execAnd (a b : Operand) (s : State) : Host.Outcome State Fault Refusal :=
  let p := sample a b s
  .next ((writeResultThenOverflow p (p.va &&& p.vb) none).charge 1)

/-- R180 BOR. -/
def execBor (a b : Operand) (s : State) : Host.Outcome State Fault Refusal :=
  let p := sample a b s
  .next ((writeResultThenOverflow p (p.va ||| p.vb) none).charge 1)

/-- R181 XOR. -/
def execXor (a b : Operand) (s : State) : Host.Outcome State Fault Refusal :=
  let p := sample a b s
  .next ((writeResultThenOverflow p (p.va ^^^ p.vb) none).charge 1)

end Sys2Proof.Machine
end

