-- ==== Sys2Proof/Machine/Conditional.lean ====
section
/-!
DEFINITION. The four conditional instructions (43_conditional.md R200 to R204). They write no operand;
the skip itself is the next step's (40_dispatch.md R115, R117).
-/

namespace Sys2Proof.Machine

/-- R200: 2 cycles; a false condition sets `skipping` and costs 1 more. -/
def concludeConditional (st : State) (condition : Bool) : State :=
  if condition then st.charge 2 else ((st.charge 2).setSkipping true).charge 1

/-- R201 IFE. -/
def execIfe (a b : Operand) (s : State) : Host.Outcome State Fault Refusal :=
  let p := sample a b s
  .next (concludeConditional p.st (ifeCondition p.va p.vb))

/-- R202 IFN. -/
def execIfn (a b : Operand) (s : State) : Host.Outcome State Fault Refusal :=
  let p := sample a b s
  .next (concludeConditional p.st (ifnCondition p.va p.vb))

/-- R203 IFG. -/
def execIfg (a b : Operand) (s : State) : Host.Outcome State Fault Refusal :=
  let p := sample a b s
  .next (concludeConditional p.st (ifgCondition p.va p.vb))

/-- R204 IFB. -/
def execIfb (a b : Operand) (s : State) : Host.Outcome State Fault Refusal :=
  let p := sample a b s
  .next (concludeConditional p.st (ifbCondition p.va p.vb))

end Sys2Proof.Machine
end

