-- ==== Sys2Proof/Machine/Extended.lean ====
section
/-!
DEFINITION. The extended instructions (44_extended.md R220 to R222): JSR, and the 63 undefined
extended opcodes in the six rows of opcode_table.json, each of which raises the machine's one fault.
-/

namespace Sys2Proof.Machine

/-- R221 JSR: the target is sampled before the push (log 5); the pushed value is the address of the
next instruction. -/
def execJsr (a : Operand) (s : State) : Host.Outcome State Fault Refusal :=
  let ra := resolve a s
  let target := ra.2.locRead ra.1
  let pushed := ra.2.writeSp (ra.2.sp - 1)
  .next (((pushed.writeMem pushed.sp pushed.pc).writePc target).charge 2)

/-- The address the instruction word was fetched from. The step's fetch has moved `pc` one past it
(40_dispatch.md R111, R112 `addr0`; log 8). -/
def instructionAddress (s : State) : Word := s.pc - 1

/-- R222: the operand is resolved, with its side effects, and then the fault is raised; no handler
effect, no opcode cost (60_exceptions.md R234). -/
def undefinedExtended (code : BitVec 6) (a : Operand) (s : State) : State :=
  (resolve a s).2.raiseUndefinedExtendedOpcode code (instructionAddress s)

/-- R222, extended opcode 0x00. -/
def execUndefExt00 (a : Operand) (s : State) : Host.Outcome State Fault Refusal :=
  .next (undefinedExtended 0x00#6 a s)

/-- R222, extended opcodes 0x02 and 0x03. -/
def execUndefExt0203 (e : BitVec 1) (a : Operand) (s : State) : Host.Outcome State Fault Refusal :=
  .next (undefinedExtended (0b00001#5 ++ e) a s)

/-- R222, extended opcodes 0x04 to 0x07. -/
def execUndefExt0407 (e : BitVec 2) (a : Operand) (s : State) : Host.Outcome State Fault Refusal :=
  .next (undefinedExtended (0b0001#4 ++ e) a s)

/-- R222, extended opcodes 0x08 to 0x0F. -/
def execUndefExt080F (e : BitVec 3) (a : Operand) (s : State) : Host.Outcome State Fault Refusal :=
  .next (undefinedExtended (0b001#3 ++ e) a s)

/-- R222, extended opcodes 0x10 to 0x1F. -/
def execUndefExt101F (e : BitVec 4) (a : Operand) (s : State) : Host.Outcome State Fault Refusal :=
  .next (undefinedExtended (0b01#2 ++ e) a s)

/-- R222, extended opcodes 0x20 to 0x3F. -/
def execUndefExt203F (e : BitVec 5) (a : Operand) (s : State) : Host.Outcome State Fault Refusal :=
  .next (undefinedExtended (0b1#1 ++ e) a s)

end Sys2Proof.Machine
end

