-- ==== Sys2Proof/Machine/Dispatch.lean ====
section
/-!
DEFINITION. One arm per instruction: the opcode tables (40_dispatch.md R130), which are constants. An
instruction is executed, not skipped, and `pc` is past its instruction word (log 8).
-/

namespace Sys2Proof.Machine

def exec (i : Instr) (s : State) : Host.Outcome State Fault Refusal :=
  match i with
  | .set a b => Sys2Proof.Machine.execSet a b s
  | .add a b => Sys2Proof.Machine.execAdd a b s
  | .sub a b => Sys2Proof.Machine.execSub a b s
  | .mul a b => Sys2Proof.Machine.execMul a b s
  | .div a b => Sys2Proof.Machine.execDiv a b s
  | .mod a b => Sys2Proof.Machine.execMod a b s
  | .shl a b => Sys2Proof.Machine.execShl a b s
  | .shr a b => Sys2Proof.Machine.execShr a b s
  | .and a b => Sys2Proof.Machine.execAnd a b s
  | .bor a b => Sys2Proof.Machine.execBor a b s
  | .xor a b => Sys2Proof.Machine.execXor a b s
  | .ife a b => Sys2Proof.Machine.execIfe a b s
  | .ifn a b => Sys2Proof.Machine.execIfn a b s
  | .ifg a b => Sys2Proof.Machine.execIfg a b s
  | .ifb a b => Sys2Proof.Machine.execIfb a b s
  | .jsr a => Sys2Proof.Machine.execJsr a s
  | .undefExt00 a => Sys2Proof.Machine.execUndefExt00 a s
  | .undefExt0203 e a => Sys2Proof.Machine.execUndefExt0203 e a s
  | .undefExt0407 e a => Sys2Proof.Machine.execUndefExt0407 e a s
  | .undefExt080F e a => Sys2Proof.Machine.execUndefExt080F e a s
  | .undefExt101F e a => Sys2Proof.Machine.execUndefExt101F e a s
  | .undefExt203F e a => Sys2Proof.Machine.execUndefExt203F e a s

end Sys2Proof.Machine
end

