-- ==== Sys2Proof/Machine/Fetch.lean ====
section
/-!
DEFINITION. The parts of a step around the meanings: the fetch (40_dispatch.md R111) and the skip path
(R115, R117).
-/

namespace Sys2Proof.Machine

/-- R111: the word at `pc`, and `pc` one past it; no cycle is charged. -/
def fetch (s : State) : Word × State := (s.readMem s.pc, s.advancePc)

/-- R115, R117: the skipped instruction's next words are stepped over, operand by operand, and
`skipping` is cleared; nothing else changes. -/
def skipInstr (i : Instr) (s : State) : State :=
  (i.operands.foldl (fun t op => skipAdvance op t) s).setSkipping false

/-- The machine has a fault latched and is halted (R127; 60_exceptions.md R237). -/
def halted (s : State) : Bool := decide (s.fault ≠ .none)

/-- Cells from `addr` on take the given words, wrapping at the top of memory. -/
def storeWords (s : State) (addr : Word) : List Word → State
  | [] => s
  | w :: ws => storeWords (s.writeMem addr w) (addr + 1) ws

end Sys2Proof.Machine
end

