-- ==== Sys2Proof/Machine/Step.lean ====
section
/-!
DEFINITION. The step (40_dispatch.md R112), and the placing of an instruction where it fetches.
-/

namespace Sys2Proof.Machine

/-- R112 `Step()`: nothing while a fault is latched (R127); otherwise fetch, decode, and either skip
the instruction or execute it, by the `skipping` flag alone (R110). Every outcome is a next state. -/
def step (s : State) : Host.Outcome State Fault Refusal :=
  if halted s then .next s
  else
    let f := fetch s
    let i := decodeWord f.1
    if f.2.skipping then .next (skipInstr i f.2) else exec i f.2

/-- The state with an instruction of the opcode table placed at `pc`, its operand words after it, and
the step free to execute it: no fault latched, nothing being skipped (log 10). -/
def State.withFetchWord (s : State) (nbits w : Nat) : State :=
  storeWords { s with skipping := false, fault := .none } s.pc (tableWords nbits w)

end Sys2Proof.Machine
end

