-- ==== Sys2Proof/Machine/HostPort.lean ====
section
/-!
DEFINITION. What the host can do to the core, between steps only (60_exceptions.md R246 to R249;
70_reset_and_hazards.md R260, R264 to R266). The host has no move that sets `skipping` or `cycles`,
and none but reset that clears `fault` (R248).
-/

namespace Sys2Proof.Machine

/-- R265: a whole image replaces all 65536 cells and nothing else (log 9). Bytes past the image's
length are ignored (R264); a shorter stream is a load error, with no state (R266). -/
def loadImage (image : List Byte) (s : State) : Option State :=
  if image.length < Config.imageBytes then none
  else some { s with mem := Memory.ofBytesFrom 0 (image.take Config.imageBytes) }

/-- One request of the host. Written values are numbers: they are truncated to 16 bits (R247). -/
inductive HostRequest where
  | reset
  | loadImage (image : List Byte)
  | step
  | readReg (r : Reg)
  | writeReg (r : Reg) (v : Nat)
  | readMem (addr : Word)
  | writeMem (addr : Word) (v : Nat)
  | readPc
  | writePc (v : Nat)
  | readSp
  | writeSp (v : Nat)
  | readO
  | writeO (v : Nat)
  | readCycles
  | readSkipping
  | readFault
  deriving DecidableEq, Repr

/-- What the host is told. -/
inductive HostReply where
  /-- A reset, a load or a write is done. -/
  | done
  /-- The image stream was too short (R266). -/
  | loadError
  /-- A step has completed; the fault latch is reported with it (R246). -/
  | stepped (fault : FaultLatch)
  /-- A step ended with no next state, which no step does; nothing changed. -/
  | notStepped
  | word (v : Word)
  | count (n : Nat)
  | flag (b : Bool)
  | latch (f : FaultLatch)
  deriving DecidableEq, Repr

/-- The core's answer to a request, and the state after it. -/
def serve (q : HostRequest) (s : State) : HostReply × State :=
  match q with
  | .reset => (.done, State.reset)
  | .loadImage image =>
    match loadImage image s with
    | some s' => (.done, s')
    | none => (.loadError, s)
  | .step =>
    match Sys2Proof.Machine.step s with
    | .next s' => (.stepped s'.fault, s')
    | .fault _ => (.notStepped, s)
    | .refused _ => (.notStepped, s)
  | .readReg r => (.word (s.readReg r), s)
  | .writeReg r v => (.done, s.writeReg r (trunc16 v))
  | .readMem addr => (.word (s.readMem addr), s)
  | .writeMem addr v => (.done, s.writeMem addr (trunc16 v))
  | .readPc => (.word s.pc, s)
  | .writePc v => (.done, s.writePc (trunc16 v))
  | .readSp => (.word s.sp, s)
  | .writeSp v => (.done, s.writeSp (trunc16 v))
  | .readO => (.word s.o, s)
  | .writeO v => (.done, s.writeO (trunc16 v))
  | .readCycles => (.count s.cycles, s)
  | .readSkipping => (.flag s.skipping, s)
  | .readFault => (.latch s.fault, s)

end Sys2Proof.Machine
end

