-- ==== Sys2Proof/Safety.lean ====
section
/-!
DEFINITION. What counts as a safe run, and the invariant that every step and every request of the host
keeps.
-/

namespace Sys2Proof

open Machine

/-- A run of `k` steps from `s` that ends in `t` with no fault latched. The latch is sticky, so no
step of the run latched one: "the absence of a recorded fault is a premise of every claim about a
completed run" (60_exceptions.md R237). -/
def SafeRun (k : Nat) (s t : State) : Prop :=
  core.run k s = .next t ∧ t.fault = .none

/-- A latch value the machine can set: the code is one of 0x00, 0x02 to 0x3F (R232). -/
def Machine.FaultLatch.legal : FaultLatch → Bool
  | .none => true
  | .undefinedExtendedOpcode code _ => decide (code ≠ 0x01#6)

/-- Memory is in its canonical form, the latch holds a value that some undefined extended opcode sets,
and a faulted core is not skipping (R234: "`skipping` was false, or the instruction would have been
skipped"). -/
structure Machine.State.Inv (s : State) : Prop where
  memory : s.mem.wf = true
  latch : s.fault.legal = true
  noSkipWhenFaulted : s.fault ≠ .none → s.skipping = false

end Sys2Proof
end

