-- ==== Sys2Proof/Certificates/Slice0/Obligations.lean ====
section
/-!
DEFINITION. The statements for the provers, and the words they are said in (namespace Sys2Proof.Claims):
the spec's tables written out a second time, apart from the model's own functions. Where a statement
rests on one of the spec's own decisions (D<n>) or on a choice of the model (log <n>), its docstring
says so.
-/

namespace Sys2Proof.Claims

open Sys2Proof.Machine

/-! ## Fields of a raw word, by the source's own formulas (30_encoding.md R80) -/

/-- `word & 0xF`. -/
def opField (w : Word) : Word := w &&& 0x000F#16

/-- `(word >> 4) & 0x3F`. -/
def aField (w : Word) : Word := (w >>> 4) &&& 0x003F#16

/-- `word >> 10`. -/
def bField (w : Word) : Word := w >>> 10

/-- 30_encoding.md R85 `NW`, on a code: in {0x0F to 0x17, 0x1E, 0x1F}. -/
def nw (code : Word) : Bool :=
  decide (0x0F#16 ≤ code ∧ code ≤ 0x17#16) || decide (code = 0x1E#16) || decide (code = 0x1F#16)

/-- `NW` as a number of words. -/
def nwCount (code : Word) : Word := if nw code then 0x0001#16 else 0x0000#16

/-- 30_encoding.md R86: the length in words, from the instruction word alone. -/
def rawLength (w : Word) : Word :=
  if opField w = 0x0000#16 then 1 + nwCount (bField w)
  else 1 + nwCount (aField w) + nwCount (bField w)

/-! ## What operands do besides giving a location (the table of 41_operands.md R156) -/

/-- How far an executed operand moves `pc`. -/
def pcMove : Operand → Word
  | .indexed _ | .indexedJ | .absolute | .literal => 0x0001#16
  | .reg _ | .indirect _ | .pop | .peek | .push | .sp | .pc | .o | .short _ => 0x0000#16

/-- `sp` after an executed operand that found it at `sp`. -/
def spAfter (op : Operand) (sp : Word) : Word :=
  match op with
  | .pop => sp + 1
  | .push => sp - 1
  | .reg _ | .indirect _ | .indexed _ | .indexedJ | .peek | .sp | .pc | .o | .absolute | .literal
  | .short _ => sp

/-- What an executed operand costs (70_reset_and_hazards.md R281). -/
def cost : Operand → Nat
  | .reg _ => 0
  | .indirect _ => 1
  | .indexed _ | .indexedJ => 1
  | .pop | .peek | .push => 0
  | .sp | .pc | .o => 0
  | .absolute => 1
  | .literal => 1
  | .short _ => 0

/-- What an opcode costs by itself, a conditional when its condition is true (R281). -/
def opcodeCost : Instr → Nat
  | .set _ _ => 1
  | .add _ _ | .sub _ _ | .mul _ _ => 2
  | .div _ _ | .mod _ _ => 3
  | .shl _ _ | .shr _ _ => 2
  | .and _ _ | .bor _ _ | .xor _ _ => 1
  | .ife _ _ | .ifn _ _ | .ifg _ _ | .ifb _ _ => 2
  | .jsr _ => 2
  | .undefExt00 _ | .undefExt0203 _ _ | .undefExt0407 _ _ | .undefExt080F _ _ | .undefExt101F _ _
  | .undefExt203F _ _ => 0

/-- Where an operand is when its turn to be resolved comes in `s` (R156, column "location"). -/
def place (op : Operand) (s : State) : Loc :=
  let word := s.mem.readWord s.pc
  match op with
  | .reg r => .reg r
  | .indirect r => .mem (s.regs.get r)
  | .indexed r => .mem (s.regs.get r + word)
  | .indexedJ => .mem (s.regs.get .J + word)
  | .pop => .mem s.sp
  | .peek => .mem s.sp
  | .push => .mem (s.sp - 1)
  | .sp => .sp
  | .pc => .pc
  | .o => .ov
  | .absolute => .mem word
  | .literal => .imm word
  | .short n => .imm (BitVec.ofNat 16 n.toNat)

/-- What a location holds in `s` (00_scope.md R9). -/
def content (l : Loc) (s : State) : Word :=
  match l with
  | .reg r => s.regs.get r
  | .mem addr => s.mem.readWord addr
  | .pc => s.pc
  | .sp => s.sp
  | .ov => s.o
  | .imm v => v

/-! ## Shapes of an instruction's effect, frame included -/

/-- A writing basic instruction `op a, b` has run from `s` to `t`, with `p` its sampled operands: the
result `r` is where `a` is and nowhere else; `o` is `o'`, or `oSelf` if `a` is `o` itself; `pc` and
`sp` are past the operands unless `a` is one of them; no other register, no other cell, and neither
`skipping` nor the latch has changed. -/
structure Wrote (a b : Operand) (s : State) (p : Sampled) (opCost : Nat) (r o' oSelf : Word)
    (t : State) : Prop where
  regs : ∀ q, t.regs.get q = if p.la = .reg q then r else s.regs.get q
  mem : ∀ addr, t.mem.readWord addr = if p.la = .mem addr then r else s.mem.readWord addr
  pc : t.pc = if p.la = .pc then r else s.pc + pcMove a + pcMove b
  sp : t.sp = if p.la = .sp then r else spAfter b (spAfter a s.sp)
  o : t.o = if p.la = .ov then oSelf else o'
  skipping : t.skipping = s.skipping
  fault : t.fault = s.fault
  cycles : t.cycles = s.cycles + (cost a + cost b) + opCost

/-- A conditional `op a, b` whose condition is `c` has run from `s` to `t` (43_conditional.md R200):
nothing is written but `skipping` when `c` is false; `pc` and `sp` are past the operands. -/
structure Tested (a b : Operand) (s : State) (c : Prop) (t : State) : Prop where
  regs : ∀ q, t.regs.get q = s.regs.get q
  mem : ∀ addr, t.mem.readWord addr = s.mem.readWord addr
  pc : t.pc = s.pc + pcMove a + pcMove b
  sp : t.sp = spAfter b (spAfter a s.sp)
  o : t.o = s.o
  fault : t.fault = s.fault
  whenTrue : c → t.skipping = s.skipping ∧ t.cycles = s.cycles + (cost a + cost b) + 2
  whenFalse : ¬ c → t.skipping = true ∧ t.cycles = s.cycles + (cost a + cost b) + 3

/-- The undefined extended opcode `code` with operand `a` has been executed from `s` (where `pc` is one
past the instruction word) to `t`: the latch holds the code and the word's address, the operand's side
effects have happened, and nothing else has (60_exceptions.md R233, R234). -/
structure Faulted (code : BitVec 6) (a : Operand) (s t : State) : Prop where
  fault : t.fault = .undefinedExtendedOpcode code (s.pc - 1)
  regs : ∀ q, t.regs.get q = s.regs.get q
  mem : ∀ addr, t.mem.readWord addr = s.mem.readWord addr
  pc : t.pc = s.pc + pcMove a
  sp : t.sp = spAfter a s.sp
  o : t.o = s.o
  skipping : t.skipping = s.skipping
  cycles : t.cycles = s.cycles + cost a

/-- SET has put `v` into register `r`: `pc`, `sp` and the cost as given, all else as in `s`. -/
def loaded (s : State) (r : Reg) (v pc sp : Word) (n : Nat) : State :=
  { s with regs := s.regs.set r v, pc := pc, sp := sp, cycles := s.cycles + n }

/-! ## Tables -/

/-- The bits that SHL leaves in `a`, by the shift amount (42_basic_alu.md R177). -/
def shlResult (va vb : Word) : Word := if vb.toNat ≤ 15 then va <<< vb.toNat else 0x0000#16

/-- The bits that SHL leaves in `o`, by the shift amount (R177). -/
def shlOut (va vb : Word) : Word :=
  if vb.toNat = 0 then 0x0000#16
  else if vb.toNat ≤ 15 then va >>> (16 - vb.toNat)
  else if vb.toNat = 16 then va
  else if vb.toNat ≤ 31 then va <<< (vb.toNat - 16)
  else 0x0000#16

/-- The bits that SHR leaves in `a`, by the shift amount (R178). -/
def shrResult (va vb : Word) : Word := if vb.toNat ≤ 15 then va >>> vb.toNat else 0x0000#16

/-- The bits that SHR leaves in `o`, by the shift amount (R178). -/
def shrOut (va vb : Word) : Word :=
  if vb.toNat = 0 then 0x0000#16
  else if vb.toNat ≤ 15 then va <<< (16 - vb.toNat)
  else if vb.toNat = 16 then va
  else if vb.toNat ≤ 31 then va >>> (vb.toNat - 16)
  else 0x0000#16

/-- `mask` and `match` of the 22 rows of opcode_table.json (30_encoding.md R103). -/
def tableRows : List (Word × Word) :=
  [(0x000F, 0x0001), (0x000F, 0x0002), (0x000F, 0x0003), (0x000F, 0x0004), (0x000F, 0x0005),
   (0x000F, 0x0006), (0x000F, 0x0007), (0x000F, 0x0008), (0x000F, 0x0009), (0x000F, 0x000A),
   (0x000F, 0x000B), (0x000F, 0x000C), (0x000F, 0x000D), (0x000F, 0x000E), (0x000F, 0x000F),
   (0x03FF, 0x0010), (0x03FF, 0x0000), (0x03EF, 0x0020), (0x03CF, 0x0040), (0x038F, 0x0080),
   (0x030F, 0x0100), (0x020F, 0x0200)]

/-- The two-operand instructions that write `a`. -/
def writesA (i : Instr) (a b : Operand) : Prop :=
  i = .set a b ∨ i = .add a b ∨ i = .sub a b ∨ i = .mul a b ∨ i = .div a b ∨ i = .mod a b ∨
  i = .shl a b ∨ i = .shr a b ∨ i = .and a b ∨ i = .bor a b ∨ i = .xor a b

/-- The instructions whose rule writes `o` besides `a` (R183). -/
def writesO (i : Instr) (a b : Operand) : Prop :=
  i = .add a b ∨ i = .sub a b ∨ i = .mul a b ∨ i = .div a b ∨ i = .mod a b ∨ i = .shl a b ∨
  i = .shr a b

/-- A conditional whose condition is false on the values `va` and `vb` (43_conditional.md R201 to
R204; IFG unsigned by D6). -/
def conditionFalse (i : Instr) (a b : Operand) (va vb : Word) : Prop :=
  (i = .ife a b ∧ va ≠ vb) ∨ (i = .ifn a b ∧ va = vb) ∨ (i = .ifg a b ∧ va.toNat ≤ vb.toNat) ∨
  (i = .ifb a b ∧ va &&& vb = 0x0000#16)

end Sys2Proof.Claims

open Sys2Proof Sys2Proof.Machine Sys2Proof.Claims

/-! ## Reset and the invariant -/

/-- 10_state.md R34, every row; the latch's row is D7, the memory's reset D13. -/
def Obligations.ResetStateIsAsTheSpecSays : Prop :=
  (∀ r, State.reset.regs.get r = 0x0000#16) ∧ State.reset.pc = 0x0000#16 ∧
  State.reset.sp = 0xFFFF#16 ∧ State.reset.o = 0x0000#16 ∧
  (∀ addr, State.reset.mem.readWord addr = 0x0000#16) ∧ State.reset.skipping = false ∧
  State.reset.cycles = 0 ∧ State.reset.fault = .none

/-- The invariant of Safety.lean holds after reset. -/
def Obligations.ResetMeetsTheInvariant : Prop := State.reset.Inv

/-- 10_state.md R33, 60_exceptions.md R232, R234: a step keeps memory canonical (log 1), the latch
within the values the spec gives it (D9), and a faulted core not skipping. From every state that meets
the invariant, reached or not. -/
def Obligations.StepKeepsTheInvariant : Prop :=
  ∀ s t : State, s.Inv → step s = .next t → t.Inv

/-- So does every request of the host (60_exceptions.md R246 to R248, D15; 70_reset_and_hazards.md R260,
R265, D13, D14), a load of any byte stream and the step among them. -/
def Obligations.HostRequestKeepsTheInvariant : Prop :=
  ∀ (q : HostRequest) (s : State), s.Inv → (serve q s).2.Inv

/-! ## The step -/

/-- 40_dispatch.md R112, R114, R116: with no fault latched and nothing to skip, the step fetches the
word at `pc`, moves `pc` one past it, and does what the instruction decoded from it does. -/
def Obligations.StepRunsTheDecodedInstruction : Prop :=
  ∀ (s : State) (i : Instr), s.fault = .none → s.skipping = false →
    decodeWord (s.mem.readWord s.pc) = i → step s = exec i { s with pc := s.pc + 1 }

/-- 40_dispatch.md R127, 60_exceptions.md R237; the spec's decision D16. -/
def Obligations.HaltedCoreStepChangesNothing : Prop :=
  ∀ s : State, s.fault ≠ .none → step s = .next s

/-- 40_dispatch.md R115, R117, R118: a skipped step moves `pc` over the whole instruction,
clears `skipping`, and does nothing else. The length is by the raw word's fields. -/
def Obligations.SkippedStepOnlyMovesPcOverTheInstruction : Prop :=
  ∀ s : State, s.fault = .none → s.skipping = true →
    step s = .next
      { s with pc := s.pc + rawLength (s.mem.readWord s.pc), skipping := false }

/-- 40_dispatch.md R129: a skipped conditional is stepped over unevaluated, and the instruction after
it executes. -/
def Obligations.SkipsDoNotChain : Prop :=
  ∀ (s : State) (i : Instr) (a b : Operand), s.fault = .none → s.skipping = true →
    decodeWord (s.mem.readWord s.pc) = i →
    (i = .ife a b ∨ i = .ifn a b ∨ i = .ifg a b ∨ i = .ifb a b) →
    ∃ t, step s = .next t ∧ t = { s with pc := s.pc + 1 + pcMove a + pcMove b, skipping := false } ∧
      step t = exec (decodeWord (t.mem.readWord t.pc)) { t with pc := t.pc + 1 }

/-- 20_memory.md R51, 30_encoding.md R83, 60_exceptions.md R230: nothing a program can hold stops the
machine short of a next state; the one fault is a next state too (log 2). -/
def Obligations.EveryStepHasANextState : Prop :=
  (∀ (i : Instr) (s : State), ∃ t, exec i s = .next t) ∧ (∀ s : State, ∃ t, step s = .next t)

/-! ## Encoding -/

/-- Words of 95_test_vectors.md Part 2, and one of each undefined row (numbering: D1, D2, D3). -/
def Obligations.SpecWordsDecodeToTheirInstructions : Prop :=
  decodeWord 0x7C01#16 = .set (.reg .A) .literal ∧
  decodeWord 0x3C21#16 = .set (.reg .C) .indexedJ ∧
  decodeWord 0x85C3#16 = .sub .pc (.short 1) ∧
  decodeWord 0x61A1#16 = .set .push .pop ∧
  decodeWord 0x5961#16 = .set (.indexed .I) (.indexed .I) ∧
  decodeWord 0xFFFF#16 = .ifb (.short 31) (.short 31) ∧
  decodeWord 0x7C10#16 = .jsr .literal ∧
  decodeWord 0x0000#16 = .undefExt00 (.reg .A) ∧
  decodeWord 0x0020#16 = .undefExt0203 0 (.reg .A) ∧
  decodeWord 0x0070#16 = .undefExt0407 3 (.reg .A) ∧
  decodeWord 0x0090#16 = .undefExt080F 1 (.reg .A) ∧
  decodeWord 0x2100#16 = .undefExt101F 0 (.indirect .A) ∧
  decodeWord 0x03F0#16 = .undefExt203F 31 (.reg .A)

/-- Decode and encode agree, on every well-formed instruction, with every operand it can have. -/
def Obligations.DecodeOfEncodeIsTheInstruction : Prop :=
  ∀ i : Instr, i.wf = true → decodeWord i.encodeWord = i

/-- And on every one of the 65536 words (30_encoding.md R83): no bit of a word is dropped, and every
word stands for a well-formed instruction. -/
def Obligations.EncodeOfDecodeIsTheWord : Prop :=
  ∀ w : Word, (decodeWord w).encodeWord = w ∧ (decodeWord w).wf = true

/-- 30_encoding.md R87, 20_memory.md R53: an instruction written as big-endian bytes, its word and then
its next words, is read back from a stream of bytes, and the rest of the stream is left. Cut at a word
boundary after the instruction word, it is refused as `truncatedNextWord`: no rule of the spec but the
model's own convention (log 13). -/
def Obligations.ByteStreamRoundTrip : Prop :=
  (∀ (i : Instr) (nws : List Word) (rest : List Byte), i.wf = true → nws.length = i.nextWords →
    decodeBytes (encodeBytes i nws ++ rest) = .ok (i, nws, rest)) ∧
  (∀ (i : Instr) (nws : List Word), i.wf = true → nws.length < i.nextWords →
    decodeBytes (encodeBytes i nws) = .error .truncatedNextWord)

/-- The model's own convention (log 13; the spec decodes no byte stream): an instruction's bytes cut
anywhere are refused by the name of what is missing, the instruction word or a next word. -/
def Obligations.CutByteStreamIsRefusedByName : Prop :=
  ∀ (i : Instr) (nws : List Word) (n : Nat), i.wf = true → nws.length = i.nextWords →
    n < 2 * i.length →
    decodeBytes ((encodeBytes i nws).take n) =
      .error (if n < 2 then .truncatedInstructionWord else .truncatedNextWord)

/-- 30_encoding.md R103: of the 22 rows of the opcode table exactly one matches each word, and it is the
row of the instruction the decoder reads from that word. The rows' masks are followed, not the rule's
count of 960 undefined words (log 14). -/
def Obligations.EachWordMatchesOneTableRow : Prop :=
  ∀ w : Word, tableRows.filter (fun row => decide (w &&& row.1 = row.2)) =
    [((decodeWord w).rowMask, (decodeWord w).rowMatch)]

/-- 30_encoding.md R85: the codes that consume a next word are exactly the eleven listed. -/
def Obligations.OperandCodeTakesNextWordExactlyAsListed : Prop :=
  ∀ c : BitVec 6, (Operand.ofCode c).takesNextWord = nw (c.setWidth 16)

/-- 30_encoding.md R86: an instruction's length by its word's fields; an extended opcode is no operand
(R82). -/
def Obligations.InstructionLengthFromTheWord : Prop :=
  ∀ w : Word, BitVec.ofNat 16 (decodeWord w).length = rawLength w ∧
    1 ≤ (decodeWord w).length ∧ (decodeWord w).length ≤ 3

/-! ## Operands, end to end -/

/-- 41_operands.md R142 to R153, each class as the source of `SET r, b`: the value, and all the side
effects there are. The two forms of [J + next word] act alike (D3). -/
def Obligations.SourceOperandsGiveTheirValues : Prop :=
  ∀ (s : State) (r q : Reg) (n : BitVec 5),
    let word := s.mem.readWord s.pc
    exec (.set (.reg r) (.reg q)) s = .next (loaded s r (s.regs.get q) s.pc s.sp 1) ∧
    exec (.set (.reg r) (.indirect q)) s =
      .next (loaded s r (s.mem.readWord (s.regs.get q)) s.pc s.sp 2) ∧
    exec (.set (.reg r) (.indexed q)) s =
      .next (loaded s r (s.mem.readWord (s.regs.get q + word)) (s.pc + 1) s.sp 2) ∧
    exec (.set (.reg r) .indexedJ) s = exec (.set (.reg r) (.indexed .J)) s ∧
    exec (.set (.reg r) .pop) s = .next (loaded s r (s.mem.readWord s.sp) s.pc (s.sp + 1) 1) ∧
    exec (.set (.reg r) .peek) s = .next (loaded s r (s.mem.readWord s.sp) s.pc s.sp 1) ∧
    exec (.set (.reg r) .push) s =
      .next (loaded s r (s.mem.readWord (s.sp - 1)) s.pc (s.sp - 1) 1) ∧
    exec (.set (.reg r) .sp) s = .next (loaded s r s.sp s.pc s.sp 1) ∧
    exec (.set (.reg r) .pc) s = .next (loaded s r s.pc s.pc s.sp 1) ∧
    exec (.set (.reg r) .o) s = .next (loaded s r s.o s.pc s.sp 1) ∧
    exec (.set (.reg r) .absolute) s =
      .next (loaded s r (s.mem.readWord word) (s.pc + 1) s.sp 2) ∧
    exec (.set (.reg r) .literal) s = .next (loaded s r word (s.pc + 1) s.sp 2) ∧
    exec (.set (.reg r) (.short n)) s = .next (loaded s r (BitVec.ofNat 16 n.toNat) s.pc s.sp 1)

/-- 41_operands.md R142 to R154, each class as the destination of `SET a, n`: what is written, and all
the side effects there are. A write to a literal is discarded. -/
def Obligations.DestinationOperandsReceiveTheResult : Prop :=
  ∀ (s : State) (q : Reg) (n m : BitVec 5),
    let v := BitVec.ofNat 16 n.toNat
    let word := s.mem.readWord s.pc
    let at1 := { s with cycles := s.cycles + 1 }
    let at2 := { s with cycles := s.cycles + 2 }
    let at2next := { s with cycles := s.cycles + 2, pc := s.pc + 1 }
    exec (.set (.reg q) (.short n)) s = .next { at1 with regs := s.regs.set q v } ∧
    exec (.set (.indirect q) (.short n)) s =
      .next { at2 with mem := s.mem.writeWord (s.regs.get q) v } ∧
    exec (.set (.indexed q) (.short n)) s =
      .next { at2next with mem := s.mem.writeWord (s.regs.get q + word) v } ∧
    exec (.set .indexedJ (.short n)) s = exec (.set (.indexed .J) (.short n)) s ∧
    exec (.set .pop (.short n)) s =
      .next { at1 with mem := s.mem.writeWord s.sp v, sp := s.sp + 1 } ∧
    exec (.set .peek (.short n)) s = .next { at1 with mem := s.mem.writeWord s.sp v } ∧
    exec (.set .push (.short n)) s =
      .next { at1 with mem := s.mem.writeWord (s.sp - 1) v, sp := s.sp - 1 } ∧
    exec (.set .sp (.short n)) s = .next { at1 with sp := v } ∧
    exec (.set .pc (.short n)) s = .next { at1 with pc := v } ∧
    exec (.set .o (.short n)) s = .next { at1 with o := v } ∧
    exec (.set .absolute (.short n)) s = .next { at2next with mem := s.mem.writeWord word v } ∧
    exec (.set .literal (.short n)) s = .next at2next ∧
    exec (.set (.short m) (.short n)) s = .next at1

/-- 41_operands.md R160, three pairs of SET: `a`'s next word stands first and `b`'s second (R87), and
`a`'s stack move is done before `b` is touched (40_dispatch.md R121). Every pair is in
OperandsOfEveryPairAreSampledInOrder. -/
def Obligations.OperandsAreResolvedFirstThenSecond : Prop :=
  ∀ s : State,
    (∃ t, exec (.set .absolute .literal) s = .next t ∧ t.pc = s.pc + 2 ∧
      t.mem = s.mem.writeWord (s.mem.readWord s.pc) (s.mem.readWord (s.pc + 1))) ∧
    (∃ t, exec (.set .push .push) s = .next t ∧ t.sp = s.sp - 2 ∧
      t.mem = s.mem.writeWord (s.sp - 1) (s.mem.readWord (s.sp - 2))) ∧
    (∃ t, exec (.set .pop .pop) s = .next t ∧ t.sp = s.sp + 2 ∧
      t.mem = s.mem.writeWord s.sp (s.mem.readWord (s.sp + 1)))

/-- 40_dispatch.md R121, R122 (sampling: D4), every pair of operands: `a` is located as the instruction
finds `pc` and `sp`, `b` as `a` has left them, and both values are read as `b` has left them; nothing
but `pc`, `sp` and `cycles` has moved. So `SP` as `a` with `b` = POP reads the incremented `sp`. -/
def Obligations.OperandsOfEveryPairAreSampledInOrder : Prop :=
  ∀ (a b : Operand) (s : State),
    let between := { s with pc := s.pc + pcMove a, sp := spAfter a s.sp }
    let after :=
      { s with pc := s.pc + pcMove a + pcMove b, sp := spAfter b (spAfter a s.sp) }
    let p := sample a b s
    p.la = place a s ∧ p.va = content (place a s) after ∧ p.vb = content (place b between) after ∧
      p.st = { after with cycles := s.cycles + cost a + cost b }

/-- 41_operands.md R159: `pc` read as an operand is the address of the next instruction, whichever of
the two operands it is: the other's next word is counted (sampling after both resolutions: D4). -/
def Obligations.PcOperandReadsTheNextInstructionAddress : Prop :=
  ∀ (s : State) (r : Reg) (op : Operand),
    (sample .pc op s).va = s.pc + pcMove op ∧ (sample op .pc s).vb = s.pc + pcMove op ∧
    exec (.jsr .pc) s = .next
      { s with sp := s.sp - 1, mem := s.mem.writeWord (s.sp - 1) s.pc, cycles := s.cycles + 2 } ∧
    exec (.set (.reg r) .pc) s = .next
      { s with regs := s.regs.set r s.pc, cycles := s.cycles + 1 }

/-! ## The writing basic instructions: result, overflow, cost and frame, for every operand pair and
every state. Both values are sampled before any write, and where `a` is `o` itself the later of the
two writes stays: the spec's decision D4 (R122, R123, R184; log 5). -/

/-- 42_basic_alu.md R171. -/
def Obligations.SetCopiesItsSource : Prop :=
  ∀ (a b : Operand) (s : State), ∃ t, exec (.set a b) s = .next t ∧
    let p := sample a b s
    Wrote a b s p 1 p.vb s.o p.vb t

/-- 42_basic_alu.md R172: without a carry `o` is left as it was. -/
def Obligations.AddWritesTheSumAndFlagsOnlyACarry : Prop :=
  ∀ (a b : Operand) (s : State), ∃ t, exec (.add a b) s = .next t ∧
    let p := sample a b s
    let sum := p.va + p.vb
    if p.va.toNat + p.vb.toNat > 0xFFFF then Wrote a b s p 2 sum 0x0001#16 0x0001#16 t
    else Wrote a b s p 2 sum s.o sum t

/-- 42_basic_alu.md R173: the borrow is `va < vb`, unsigned; without one `o` is left as it was. -/
def Obligations.SubWritesTheDifferenceAndFlagsOnlyABorrow : Prop :=
  ∀ (a b : Operand) (s : State), ∃ t, exec (.sub a b) s = .next t ∧
    let p := sample a b s
    let difference := p.va - p.vb
    if p.va < p.vb then Wrote a b s p 2 difference 0xFFFF#16 0xFFFF#16 t
    else Wrote a b s p 2 difference s.o difference t

/-- 42_basic_alu.md R174: `o` and the result are the two halves of the exact product. -/
def Obligations.MulSplitsTheExactProduct : Prop :=
  ∀ (a b : Operand) (s : State), ∃ t, exec (.mul a b) s = .next t ∧
    let p := sample a b s
    ∃ high : Word, Wrote a b s p 2 (p.va * p.vb) high high t ∧
      high.toNat * 65536 + (p.va * p.vb).toNat = p.va.toNat * p.vb.toNat

/-- 42_basic_alu.md R175: quotient and fraction together are `va / vb` to 16 fractional bits; the
divisor 0 gives 0 and 0. -/
def Obligations.DivWritesQuotientAndFraction : Prop :=
  ∀ (a b : Operand) (s : State), ∃ t, exec (.div a b) s = .next t ∧
    let p := sample a b s
    (p.vb = 0x0000#16 → Wrote a b s p 3 0x0000#16 0x0000#16 0x0000#16 t) ∧
    (p.vb ≠ 0x0000#16 → ∃ quotient fraction : Word,
      Wrote a b s p 3 quotient fraction fraction t ∧
      quotient.toNat = p.va.toNat / p.vb.toNat ∧
      quotient.toNat * 65536 + fraction.toNat = p.va.toNat * 65536 / p.vb.toNat)

/-- 42_basic_alu.md R176: `o` is written only for the divisor 0, where both are 0. -/
def Obligations.ModWritesTheRemainder : Prop :=
  ∀ (a b : Operand) (s : State), ∃ t, exec (.mod a b) s = .next t ∧
    let p := sample a b s
    (p.vb = 0x0000#16 → Wrote a b s p 3 0x0000#16 0x0000#16 0x0000#16 t) ∧
    (p.vb ≠ 0x0000#16 → ∃ remainder : Word, Wrote a b s p 3 remainder s.o remainder t ∧
      remainder.toNat = p.va.toNat % p.vb.toNat)

/-- 42_basic_alu.md R177, its table of shift amounts (unmasked: D5). Where `a` is `o`, the result
stays. -/
def Obligations.ShlShiftsOutIntoOverflow : Prop :=
  ∀ (a b : Operand) (s : State), ∃ t, exec (.shl a b) s = .next t ∧
    let p := sample a b s
    Wrote a b s p 2 (shlResult p.va p.vb) (shlOut p.va p.vb) (shlResult p.va p.vb) t

/-- 42_basic_alu.md R178, its table of shift amounts (unmasked: D5; logical: D6). Where `a` is `o`,
the result stays. -/
def Obligations.ShrShiftsOutIntoOverflow : Prop :=
  ∀ (a b : Operand) (s : State), ∃ t, exec (.shr a b) s = .next t ∧
    let p := sample a b s
    Wrote a b s p 2 (shrResult p.va p.vb) (shrOut p.va p.vb) (shrResult p.va p.vb) t

/-- 42_basic_alu.md R179, R180, R181: bit by bit, and `o` is not touched. -/
def Obligations.AndBorXorWorkBitByBit : Prop :=
  ∀ (a b : Operand) (s : State),
    let p := sample a b s
    (∃ t r, exec (.and a b) s = .next t ∧ Wrote a b s p 1 r s.o r t ∧
      ∀ k, r.getLsbD k = (p.va.getLsbD k && p.vb.getLsbD k)) ∧
    (∃ t r, exec (.bor a b) s = .next t ∧ Wrote a b s p 1 r s.o r t ∧
      ∀ k, r.getLsbD k = (p.va.getLsbD k || p.vb.getLsbD k)) ∧
    (∃ t r, exec (.xor a b) s = .next t ∧ Wrote a b s p 1 r s.o r t ∧
      ∀ k, r.getLsbD k = (p.va.getLsbD k ^^ p.vb.getLsbD k))

/-- 41_operands.md R154, 90_conflicts.md C5: with a literal as `a`, no writing instruction changes a
general register or a memory cell, and `pc` and `sp` move by the operands alone; `o` may change. -/
def Obligations.WritesToLiteralsAreDiscarded : Prop :=
  ∀ (i : Instr) (a b : Operand) (s : State), writesA i a b → (a = .literal ∨ ∃ n, a = .short n) →
    ∃ t, exec i s = .next t ∧ t.regs = s.regs ∧ t.mem = s.mem ∧
      t.pc = s.pc + pcMove a + pcMove b ∧ t.sp = spAfter b s.sp ∧ t.skipping = s.skipping

/-- 10_state.md R29, 42_basic_alu.md R183: an executed instruction changes `o` only if its rule writes
`o`, or it writes its operand `a` and `a` is `o`. -/
def Obligations.OverflowChangesOnlyWhereListed : Prop :=
  ∀ (i : Instr) (s t : State), exec i s = .next t → t.o ≠ s.o →
    ∃ a b, writesO i a b ∨ (writesA i a b ∧ a = .o)

/-! ## Conditionals, the call, and the undefined extended opcodes -/

/-- 43_conditional.md R200, for the four conditions of R201 to R204. That IFG compares unsigned is the
spec's decision D6 (R203, log 6). -/
def Obligations.ConditionalsTestAndWriteNothing : Prop :=
  ∀ (a b : Operand) (s : State),
    let p := sample a b s
    (∃ t, exec (.ife a b) s = .next t ∧ Tested a b s (p.va = p.vb) t) ∧
    (∃ t, exec (.ifn a b) s = .next t ∧ Tested a b s (p.va ≠ p.vb) t) ∧
    (∃ t, exec (.ifg a b) s = .next t ∧ Tested a b s (p.vb < p.va) t) ∧
    (∃ t, exec (.ifb a b) s = .next t ∧
      Tested a b s (∃ k, p.va.getLsbD k = true ∧ p.vb.getLsbD k = true) t)

/-- 44_extended.md R221: the operand's value is sampled before the push (D4); the pushed word is the
address of the next instruction; no other cell, no general register, not `o`, not `skipping` changes. -/
def Obligations.JsrPushesTheReturnAddressAndJumps : Prop :=
  ∀ (a : Operand) (s : State), ∃ t, exec (.jsr a) s = .next t ∧
    t.pc = (resolve a s).2.locRead (resolve a s).1 ∧
    t.sp = spAfter a s.sp - 1 ∧
    (∀ addr, t.mem.readWord addr =
      if addr = spAfter a s.sp - 1 then s.pc + pcMove a else s.mem.readWord addr) ∧
    (∀ q, t.regs.get q = s.regs.get q) ∧ t.o = s.o ∧ t.skipping = s.skipping ∧
    t.fault = s.fault ∧ t.cycles = s.cycles + cost a + 2

/-- 44_extended.md R224, the rows of its table whose operand is the stack, `sp` or the cell pushed to
(D4): target, `sp` and the cell written, by the state before. -/
def Obligations.JsrCornerCases : Prop :=
  ∀ s : State,
    let jumped (t : State) (target sp cell : Word) (n : Word) : Prop :=
      t.pc = target ∧ t.sp = sp ∧ t.mem = s.mem.writeWord cell n
    (∃ t, exec (.jsr .sp) s = .next t ∧ jumped t s.sp (s.sp - 1) (s.sp - 1) s.pc) ∧
    (∃ t, exec (.jsr .pop) s = .next t ∧ jumped t (s.mem.readWord s.sp) s.sp s.sp s.pc) ∧
    (∃ t, exec (.jsr .peek) s = .next t ∧
      jumped t (s.mem.readWord s.sp) (s.sp - 1) (s.sp - 1) s.pc) ∧
    (∃ t, exec (.jsr .push) s = .next t ∧
      jumped t (s.mem.readWord (s.sp - 1)) (s.sp - 2) (s.sp - 2) s.pc) ∧
    (∃ t, exec (.jsr .absolute) s = .next t ∧
      jumped t (s.mem.readWord (s.mem.readWord s.pc)) (s.sp - 1) (s.sp - 1) (s.pc + 1))

/-- 44_extended.md R222, 60_exceptions.md R233, R234 (D7, D8, D9): each undefined extended opcode, on
every operand (log 14), latches the fault with its own code. -/
def Obligations.UndefinedExtendedOpcodesLatchTheFault : Prop :=
  (∀ (a : Operand) (s : State), ∃ t, exec (.undefExt00 a) s = .next t ∧ Faulted 0x00#6 a s t) ∧
  (∀ (e : BitVec 1) (a : Operand) (s : State), ∃ t, exec (.undefExt0203 e a) s = .next t ∧
    Faulted (BitVec.ofNat 6 (0x02 + e.toNat)) a s t) ∧
  (∀ (e : BitVec 2) (a : Operand) (s : State), ∃ t, exec (.undefExt0407 e a) s = .next t ∧
    Faulted (BitVec.ofNat 6 (0x04 + e.toNat)) a s t) ∧
  (∀ (e : BitVec 3) (a : Operand) (s : State), ∃ t, exec (.undefExt080F e a) s = .next t ∧
    Faulted (BitVec.ofNat 6 (0x08 + e.toNat)) a s t) ∧
  (∀ (e : BitVec 4) (a : Operand) (s : State), ∃ t, exec (.undefExt101F e a) s = .next t ∧
    Faulted (BitVec.ofNat 6 (0x10 + e.toNat)) a s t) ∧
  (∀ (e : BitVec 5) (a : Operand) (s : State), ∃ t, exec (.undefExt203F e a) s = .next t ∧
    Faulted (BitVec.ofNat 6 (0x20 + e.toNat)) a s t)

/-! ## Whole-machine rules -/

/-- 10_state.md R30, R33; 43_conditional.md R200: after a step of a core with no fault latched,
`skipping` is set exactly if that step executed a conditional whose condition was false. -/
def Obligations.SkippingIsSetExactlyByAFalseConditional : Prop :=
  ∀ s t : State, s.fault = .none → step s = .next t →
    (t.skipping = true ↔ s.skipping = false ∧ ∃ a b,
      let p := sample a b { s with pc := s.pc + 1 }
      conditionFalse (decodeWord (s.mem.readWord s.pc)) a b p.va p.vb)

/-- 60_exceptions.md R231, R232 (latch and its fields: D7, D9): the fault is latched by, and only by,
executing a word whose `f_op` is 0 and whose `f_a` is not 1, with that `f_a` and the word's address.
These are 4032 words, by the fields and not by the rules' count of 960 (log 14). -/
def Obligations.FaultIsLatchedExactlyByUndefinedExtendedOpcodes : Prop :=
  ∀ s t : State, s.fault = .none → step s = .next t →
    let w := s.mem.readWord s.pc
    t.fault = if s.skipping = false ∧ opField w = 0x0000#16 ∧ aField w ≠ 0x0001#16
      then .undefinedExtendedOpcode ((aField w).setWidth 6) s.pc else .none

/-- 70_reset_and_hazards.md R281: what a step costs, by the table: the opcode and its operands, 1 more
if the step set `skipping` (a condition that was false, R200), and nothing at all when skipped. That an
undefined extended opcode costs its operand alone is the spec's decision D8 (60_exceptions.md R234,
log 2). -/
def Obligations.StepCostsWhatTheTableSays : Prop :=
  ∀ s t : State, s.fault = .none → step s = .next t →
    let i := decodeWord (s.mem.readWord s.pc)
    t.cycles = s.cycles + if s.skipping then 0
      else opcodeCost i + (i.operands.map cost).sum + if t.skipping then 1 else 0

/-- 10_state.md R31, R33 (2): the counter never decreases (unbounded: D12); and no step adds more than
5. -/
def Obligations.CyclesNeverDecrease : Prop :=
  ∀ s t : State, step s = .next t → s.cycles ≤ t.cycles ∧ t.cycles ≤ s.cycles + 5

/-- 44_extended.md R223: from wherever the subroutine ends with `sp`, the pushed cell, the registers
and `o` as the call left them, `SET PC, POP` goes to the instruction after the call and restores `sp`
as the call's operand left it. -/
def Obligations.ReturnUndoesTheCall : Prop :=
  ∀ (a : Operand) (s : State) (here : Word), ∃ t u, exec (.jsr a) s = .next t ∧
    exec (.set .pc .pop) { t with pc := here } = .next u ∧
    u.pc = s.pc + pcMove a ∧ u.sp = spAfter a s.sp ∧ u.regs = s.regs ∧ u.o = s.o ∧
    u.cycles = s.cycles + cost a + 3

/-- 41_operands.md R145, R147: a register pushed and then popped into a register. Only the popped
register and the cell below the old top change, whatever `sp` is, 0 included (10_state.md R28). -/
def Obligations.PushThenPopMovesARegister : Prop :=
  ∀ (r q : Reg) (s : State), ∃ t u, exec (.set .push (.reg r)) s = .next t ∧
    exec (.set (.reg q) .pop) t = .next u ∧
    (∀ q', u.regs.get q' = if q' = q then s.regs.get r else s.regs.get q') ∧ u.sp = s.sp ∧
    u.pc = s.pc ∧ u.o = s.o ∧
    (∀ addr, u.mem.readWord addr =
      if addr = s.sp - 1 then s.regs.get r else s.mem.readWord addr)

/-- 40_dispatch.md R121: `SET PUSH, POP` copies a cell to itself and leaves `sp`; in a canonical memory
(log 1) nothing but `cycles` changes, as data. -/
def Obligations.SetPushPopChangesOnlyCycles : Prop :=
  ∀ s : State, s.mem.wf = true →
    exec (.set .push .pop) s = .next { s with cycles := s.cycles + 1 }

/-- 30_encoding.md R102, 40_dispatch.md R126: the word 0x85C3, `SUB PC, 1`, jumps to itself. It changes
only `cycles`, but that at address 0xFFFF the subtraction 0 - 1 borrows (42_basic_alu.md R173). -/
def Obligations.SubPcOneJumpsToItself : Prop :=
  ∀ s : State, s.fault = .none → s.skipping = false → s.mem.readWord s.pc = 0x85C3#16 →
    step s = .next
      { s with cycles := s.cycles + 2, o := if s.pc = 0xFFFF#16 then 0xFFFF#16 else s.o }

/-- 20_memory.md R64: a stored word is what a fetch from that cell then reads, code or not. -/
def Obligations.StoreIsSeenByTheNextFetch : Prop :=
  ∀ (s : State) (q : Reg) (b : Operand), ∃ t, exec (.set (.indirect q) b) s = .next t ∧
    ((fetch { t with pc := s.regs.get q }).1 = (sample (.indirect q) b s).vb)

/-- 20_memory.md R68, 44_extended.md R222: the first step after reset with no image loaded faults
(D7, D9). -/
def Obligations.UnloadedCoreFaultsOnItsFirstStep : Prop :=
  step State.reset = .next
    { State.reset with pc := 0x0001#16, fault := .undefinedExtendedOpcode 0x00#6 0x0000#16 }

/-- 60_exceptions.md R237 (D16): a run that ends with no fault latched has had none latched at any step
of it. -/
def Obligations.SafeRunLatchesNoFaultOnTheWay : Prop :=
  ∀ (j k : Nat) (s t u : State), SafeRun (j + k) s t → core.run j s = .next u →
    u.fault = .none ∧ SafeRun k u t

/-! ## The host, and memory as data -/

/-- 70_reset_and_hazards.md R264: a long enough stream is loaded as big-endian words from address 0, its
surplus ignored; a shorter one is a load error. -/
def Obligations.LoadedImageIsTheMemory : Prop :=
  ∀ (image : List Byte) (s : State),
    (0x20000 ≤ image.length → ∃ t, serve (.loadImage image) s = (.done, t) ∧
      ∀ k : Word, (t.mem.readWord k).toNat =
        (image.getD (2 * k.toNat) 0).toNat * 256 + (image.getD (2 * k.toNat + 1) 0).toNat) ∧
    (image.length < 0x20000 → (serve (.loadImage image) s).1 = .loadError)

/-- 70_reset_and_hazards.md R266: a load error leaves everything as it was. -/
def Obligations.LoadErrorChangesNothing : Prop :=
  ∀ (image : List Byte) (s : State), image.length < 0x20000 →
    serve (.loadImage image) s = (.loadError, s)

/-- 70_reset_and_hazards.md R265; that a load touches nothing but memory is the spec's decision D14. -/
def Obligations.LoadChangesMemoryOnly : Prop :=
  ∀ (image : List Byte) (s : State),
    (serve (.loadImage image) s).2 = { s with mem := (serve (.loadImage image) s).2.mem }

/-- 60_exceptions.md R247, R248 (D15): no request but a step or a reset changes `skipping`, `cycles` or
the latch. -/
def Obligations.HostSetsNeitherSkippingNorCyclesNorFault : Prop :=
  ∀ (q : HostRequest) (s : State), q ≠ .step → q ≠ .reset →
    (serve q s).2.skipping = s.skipping ∧ (serve q s).2.cycles = s.cycles ∧
    (serve q s).2.fault = s.fault

/-- 60_exceptions.md R247, 20_memory.md R67: what the host writes is truncated to 16 bits and is what it
then reads back, and what a register or cell it did not write reads as before. -/
def Obligations.HostWritesAreTruncatedAndReadBack : Prop :=
  ∀ (s : State) (v : Nat),
    let kept := HostReply.word (BitVec.ofNat 16 (v % 65536))
    (∀ r q, (serve (.readReg q) (serve (.writeReg r v) s).2).1 =
      if q = r then kept else .word (s.regs.get q)) ∧
    (∀ a a', (serve (.readMem a') (serve (.writeMem a v) s).2).1 =
      if a' = a then kept else .word (s.mem.readWord a')) ∧
    (serve .readPc (serve (.writePc v) s).2).1 = kept ∧
    (serve .readSp (serve (.writeSp v) s).2).1 = kept ∧
    (serve .readO (serve (.writeO v) s).2).1 = kept

/-- 60_exceptions.md R246: a step request performs the step and reports the latch (transaction form:
D11). -/
def Obligations.StepRequestStepsAndReportsTheLatch : Prop :=
  ∀ s t : State, step s = .next t → serve .step s = (.stepped t.fault, t)

/-- The model's canonical form (log 1): two memories that read alike at every address are the same
data. -/
def Obligations.MemoriesThatReadAlikeAreEqual : Prop :=
  ∀ m m' : Memory, m.wf = true → m'.wf = true → (∀ a, m.readWord a = m'.readWord a) → m = m'
end

