-- ==== Sys2Proof/Laws/Decode.lean ====
section
/-!
SUPPORT. The fields of a packed word, and operand codes against operand forms.
-/

namespace Sys2Proof

/-! ## Fields -/

section
variable (b a : BitVec 6) (op : BitVec 4)

theorem getLsbD_packWord (i : Nat) :
    (packWord b a op).getLsbD i =
      if i < 4 then op.getLsbD i else if i - 4 < 6 then a.getLsbD (i - 4)
      else b.getLsbD (i - 4 - 6) := by
  simp only [packWord, BitVec.getLsbD_append]

@[simp] theorem fieldOp_packWord : fieldOp (packWord b a op) = op := by
  apply BitVec.eq_of_getLsbD_eq
  intro i hi
  rw [fieldOp, BitVec.getLsbD_extractLsb', getLsbD_packWord]
  simp [hi]

@[simp] theorem fieldA_packWord : fieldA (packWord b a op) = a := by
  apply BitVec.eq_of_getLsbD_eq
  intro i hi
  rw [fieldA, BitVec.getLsbD_extractLsb', getLsbD_packWord]
  simp [hi]

@[simp] theorem fieldB_packWord : fieldB (packWord b a op) = b := by
  apply BitVec.eq_of_getLsbD_eq
  intro i hi
  rw [fieldB, BitVec.getLsbD_extractLsb', getLsbD_packWord]
  simp [hi, show ¬ 10 + i < 4 by omega, show ¬ 10 + i - 4 < 6 by omega,
    show 10 + i - 4 - 6 = i by omega]

end

/-- A word is its three fields (30_encoding.md R80). -/
theorem packWord_fields (w : Word) : packWord (fieldB w) (fieldA w) (fieldOp w) = w := by
  apply BitVec.eq_of_getLsbD_eq
  intro i hi
  simp only [fieldOp, fieldA, fieldB, packWord, BitVec.getLsbD_append, BitVec.getLsbD_extractLsb']
  by_cases h1 : i < 4
  · simp [h1]
  · by_cases h2 : i - 4 < 6
    · simp [h1, h2, show 4 + (i - 4) = i by omega]
    · simp [h1, h2, show i - 4 - 6 < 6 by omega, show 10 + (i - 4 - 6) = i by omega]

/-! ## Registers and operand codes -/

@[simp] theorem Reg.ofIndex_index (r : Reg) : Reg.ofIndex r.index = r := by cases r <;> rfl

/-- Every code is the code of its form: no bit of an operand code is dropped. -/
@[simp] theorem Operand.code_ofCode : ∀ c : BitVec 6, (Operand.ofCode c).code = c := by decide

/-- No code stands for the form that has none. -/
@[simp] theorem Operand.wf_ofCode : ∀ c : BitVec 6, (Operand.ofCode c).wf = true := by decide

theorem Operand.ofCode_code_short : ∀ n : BitVec 5, Operand.ofCode (Operand.short n).code = .short n := by
  decide

/-- A well-formed operand form is the form of its code. -/
theorem Operand.ofCode_code (op : Operand) (h : op.wf = true) : Operand.ofCode op.code = op := by
  cases op with
  | short n => exact Operand.ofCode_code_short n
  | reg r => cases r <;> decide
  | indirect r => cases r <;> first | decide | exact absurd h (by decide)
  | indexed r => cases r <;> decide
  | _ => decide

/-! ## Words and bytes -/

@[simp] theorem takeWords_zero (bs : List Byte) : takeWords 0 bs = some ([], bs) := by
  cases bs <;> rfl

theorem takeWords_succ (n : Nat) (hi lo : Byte) (bs : List Byte) :
    takeWords (n + 1) (hi :: lo :: bs) =
      (takeWords n bs).map fun r => (wordOfBytes hi lo :: r.1, r.2) := rfl

end Sys2Proof
end

