-- ==== Sys2Proof/Laws/Memory.lean ====
section
/-!
SUPPORT. Memory: a read after a write, what a write leaves alone, and that every operation keeps the
canonical form.
-/

namespace Sys2Proof.Machine.Memory

/-! ## Bytes -/

@[simp] theorem readByte_nil (n : Nat) : readByte [] n = Config.unlistedByte := rfl

theorem readByte_cons (k : Nat) (v : Byte) (m : Memory) (n : Nat) :
    readByte ((k, v) :: m) n = if k = n then v else readByte m n := rfl

theorem readByte_eraseByte (m : Memory) (n k : Nat) :
    readByte (eraseByte m n) k = if k = n then Config.unlistedByte else readByte m k := by
  induction m with
  | nil => simp [eraseByte]
  | cons p m ih =>
    obtain ⟨j, v⟩ := p
    simp only [eraseByte]
    split_ifs with hj hk hk <;> simp_all [readByte_cons]
    · intro h; exact absurd h.symm hk

theorem readByte_insertByte (m : Memory) (n : Nat) (b : Byte) (k : Nat)
    (habsent : ∀ p ∈ m, p.1 ≠ n) :
    readByte (insertByte m n b) k = if k = n then b else readByte m k := by
  induction m with
  | nil => simp [insertByte, readByte_cons, eq_comm]
  | cons p m ih =>
    obtain ⟨j, v⟩ := p
    have hj : j ≠ n := habsent (j, v) (by simp)
    have ih := ih fun p hp => habsent p (by simp [hp])
    simp only [insertByte]
    split_ifs with hlt hk <;> simp_all [readByte_cons]
    intro h; exact absurd h.symm hk

theorem eraseByte_absent (m : Memory) (n : Nat) : ∀ p ∈ eraseByte m n, p.1 ≠ n := by
  induction m with
  | nil => simp [eraseByte]
  | cons p m ih =>
    obtain ⟨j, v⟩ := p
    simp only [eraseByte]
    split_ifs with hj
    · exact ih
    · intro q hq
      rcases List.mem_cons.mp hq with rfl | hq
      · exact hj
      · exact ih q hq

/-- A read of a byte after a write of one. -/
theorem readByte_writeByte (m : Memory) (n : Nat) (b : Byte) (k : Nat) :
    readByte (writeByte m n b) k = if k = n then b else readByte m k := by
  unfold writeByte
  split_ifs with hb hk hk
  · simp [readByte_eraseByte, hk, hb]
  · simp [readByte_eraseByte, hk]
  · simp [readByte_insertByte _ _ _ _ (eraseByte_absent m n), hk]
  · simp [readByte_insertByte _ _ _ _ (eraseByte_absent m n), readByte_eraseByte, hk]

/-! ## Words -/

theorem wordOfBytes_of_halves (v : Word) :
    wordOfBytes (v.extractLsb' 8 8) (v.extractLsb' 0 8) = v := by
  apply BitVec.eq_of_toNat_eq
  have hv := v.isLt
  simp only [wordOfBytes, BitVec.toNat_append, BitVec.extractLsb'_toNat, Nat.shiftRight_eq_div_pow]
  rw [← Nat.shiftLeft_add_eq_or_of_lt (Nat.mod_lt _ (by norm_num)), Nat.shiftLeft_eq]
  omega

@[simp] theorem readWord_nil (addr : Word) : readWord [] addr = 0x0000#16 := by
  simp [readWord, wordOfBytes, Config.unlistedByte]

/-- A read of a cell after a write of one: the cell written holds the value, every other cell is as it
was (20_memory.md R57, R60). -/
theorem readWord_writeWord (m : Memory) (a v a' : Word) :
    readWord (writeWord m a v) a' = if a' = a then v else readWord m a' := by
  have ha := a.isLt
  have ha' := a'.isLt
  simp only [readWord, writeWord, readByte_writeByte]
  by_cases h : a' = a
  · subst h
    simp [wordOfBytes_of_halves]
  · have hn : a'.toNat ≠ a.toNat := fun hc => h (BitVec.eq_of_toNat_eq hc)
    have h1 : 2 * a'.toNat ≠ 2 * a.toNat + 1 := by omega
    have h2 : 2 * a'.toNat ≠ 2 * a.toNat := by omega
    have h4 : 2 * a'.toNat + 1 ≠ 2 * a.toNat := by omega
    simp [h, h1, h2, h4]

@[simp] theorem readWord_writeWord_same (m : Memory) (a v : Word) :
    readWord (writeWord m a v) a = v := by simp [readWord_writeWord]

theorem readWord_writeWord_other (m : Memory) {a a' : Word} (v : Word) (h : a' ≠ a) :
    readWord (writeWord m a v) a' = readWord m a' := by simp [readWord_writeWord, h]

/-! ## The canonical form -/

@[simp] theorem wf_nil : wf [] = true := rfl

theorem wfFrom_cons {lo k : Nat} {v : Byte} {m : Memory} :
    wfFrom lo ((k, v) :: m) = true ↔
      lo ≤ k ∧ k < Config.imageBytes ∧ v ≠ Config.unlistedByte ∧ wfFrom (k + 1) m = true := by
  simp [wfFrom, and_assoc]

theorem wfFrom_mono {lo lo' : Nat} {m : Memory} (h : wfFrom lo' m = true) (hle : lo ≤ lo') :
    wfFrom lo m = true := by
  cases m with
  | nil => rfl
  | cons p m =>
    obtain ⟨k, v⟩ := p
    rw [wfFrom_cons] at h ⊢
    exact ⟨hle.trans h.1, h.2⟩

theorem wfFrom_eraseByte {lo : Nat} {m : Memory} (n : Nat) (h : wfFrom lo m = true) :
    wfFrom lo (eraseByte m n) = true := by
  induction m generalizing lo with
  | nil => rfl
  | cons p m ih =>
    obtain ⟨k, v⟩ := p
    rw [wfFrom_cons] at h
    simp only [eraseByte]
    split_ifs
    · exact wfFrom_mono (ih h.2.2.2) (h.1.trans (Nat.le_succ k))
    · exact wfFrom_cons.mpr ⟨h.1, h.2.1, h.2.2.1, ih h.2.2.2⟩

theorem wfFrom_insertByte {lo n : Nat} {b : Byte} {m : Memory} (h : wfFrom lo m = true)
    (hlo : lo ≤ n) (hn : n < Config.imageBytes) (hb : b ≠ Config.unlistedByte)
    (habsent : ∀ p ∈ m, p.1 ≠ n) : wfFrom lo (insertByte m n b) = true := by
  induction m generalizing lo with
  | nil => exact wfFrom_cons.mpr ⟨hlo, hn, hb, rfl⟩
  | cons p m ih =>
    obtain ⟨k, v⟩ := p
    have hk : k ≠ n := habsent (k, v) (by simp)
    rw [wfFrom_cons] at h
    simp only [insertByte]
    split_ifs with hlt
    · exact wfFrom_cons.mpr ⟨hlo, hn, hb, wfFrom_cons.mpr ⟨hlt, h.2⟩⟩
    · exact wfFrom_cons.mpr ⟨h.1, h.2.1, h.2.2.1,
        ih h.2.2.2 (by omega) fun p hp => habsent p (by simp [hp])⟩

theorem wf_writeByte {m : Memory} {n : Nat} (b : Byte) (h : m.wf = true)
    (hn : n < Config.imageBytes) : (m.writeByte n b).wf = true := by
  unfold writeByte
  split_ifs with hb
  · exact wfFrom_eraseByte n h
  · exact wfFrom_insertByte (wfFrom_eraseByte n h) (Nat.zero_le n) hn hb (eraseByte_absent m n)

/-- A write of a cell keeps the canonical form. -/
theorem wf_writeWord {m : Memory} (a v : Word) (h : m.wf = true) : (m.writeWord a v).wf = true := by
  have ha := a.isLt
  unfold writeWord
  refine wf_writeByte _ (wf_writeByte _ h ?_) ?_ <;> simp only [Config.imageBytes] <;> omega

/-! ## A loaded image -/

theorem readByte_ofBytesFrom_low {n k : Nat} (bs : List Byte) (h : k < n) :
    readByte (ofBytesFrom n bs) k = Config.unlistedByte := by
  induction bs generalizing n with
  | nil => rfl
  | cons b bs ih =>
    simp only [ofBytesFrom]
    split_ifs
    · exact ih (by omega)
    · rw [readByte_cons, if_neg (by omega)]
      exact ih (by omega)

/-- Byte `n + j` of the memory of a run of bytes from `n` on is the run's byte `j`. -/
theorem readByte_ofBytesFrom (n : Nat) (bs : List Byte) (j : Nat) :
    readByte (ofBytesFrom n bs) (n + j) = bs.getD j Config.unlistedByte := by
  induction bs generalizing n j with
  | nil => simp [ofBytesFrom]
  | cons b bs ih =>
    cases j with
    | zero =>
      simp only [ofBytesFrom]
      split_ifs with hb
      · rw [readByte_ofBytesFrom_low bs (by omega)]
        simp [hb]
      · simp [readByte_cons]
    | succ j =>
      have ih := ih (n + 1) j
      rw [show n + 1 + j = n + (j + 1) by omega] at ih
      simp only [ofBytesFrom]
      split_ifs with hb
      · simpa using ih
      · rw [readByte_cons, if_neg (by omega)]
        simpa using ih

theorem wfFrom_ofBytesFrom (n : Nat) (bs : List Byte) (h : n + bs.length ≤ Config.imageBytes) :
    wfFrom n (ofBytesFrom n bs) = true := by
  induction bs generalizing n with
  | nil => rfl
  | cons b bs ih =>
    simp only [List.length_cons] at h
    have ih := ih (n + 1) (by omega)
    simp only [ofBytesFrom]
    split_ifs with hb
    · exact wfFrom_mono ih (by omega)
    · exact wfFrom_cons.mpr ⟨le_refl n, by omega, hb, ih⟩

end Sys2Proof.Machine.Memory
end

