-- ==== Sys2Proof/Laws/State.lean ====
section
/-!
SUPPORT. One lemma a field for every update of the state, so that no proof unfolds a record update.
-/

namespace Sys2Proof.Machine.State

variable (s : State)

@[simp] theorem writeReg_regs (r : Reg) (v : Word) : (s.writeReg r v).regs = s.regs.set r v := rfl
@[simp] theorem writeReg_pc (r : Reg) (v : Word) : (s.writeReg r v).pc = s.pc := rfl
@[simp] theorem writeReg_sp (r : Reg) (v : Word) : (s.writeReg r v).sp = s.sp := rfl
@[simp] theorem writeReg_o (r : Reg) (v : Word) : (s.writeReg r v).o = s.o := rfl
@[simp] theorem writeReg_mem (r : Reg) (v : Word) : (s.writeReg r v).mem = s.mem := rfl
@[simp] theorem writeReg_skipping (r : Reg) (v : Word) :
    (s.writeReg r v).skipping = s.skipping := rfl
@[simp] theorem writeReg_cycles (r : Reg) (v : Word) : (s.writeReg r v).cycles = s.cycles := rfl
@[simp] theorem writeReg_fault (r : Reg) (v : Word) : (s.writeReg r v).fault = s.fault := rfl

@[simp] theorem writePc_regs (v : Word) : (s.writePc v).regs = s.regs := rfl
@[simp] theorem writePc_pc (v : Word) : (s.writePc v).pc = v := rfl
@[simp] theorem writePc_sp (v : Word) : (s.writePc v).sp = s.sp := rfl
@[simp] theorem writePc_o (v : Word) : (s.writePc v).o = s.o := rfl
@[simp] theorem writePc_mem (v : Word) : (s.writePc v).mem = s.mem := rfl
@[simp] theorem writePc_skipping (v : Word) : (s.writePc v).skipping = s.skipping := rfl
@[simp] theorem writePc_cycles (v : Word) : (s.writePc v).cycles = s.cycles := rfl
@[simp] theorem writePc_fault (v : Word) : (s.writePc v).fault = s.fault := rfl

@[simp] theorem writeSp_regs (v : Word) : (s.writeSp v).regs = s.regs := rfl
@[simp] theorem writeSp_pc (v : Word) : (s.writeSp v).pc = s.pc := rfl
@[simp] theorem writeSp_sp (v : Word) : (s.writeSp v).sp = v := rfl
@[simp] theorem writeSp_o (v : Word) : (s.writeSp v).o = s.o := rfl
@[simp] theorem writeSp_mem (v : Word) : (s.writeSp v).mem = s.mem := rfl
@[simp] theorem writeSp_skipping (v : Word) : (s.writeSp v).skipping = s.skipping := rfl
@[simp] theorem writeSp_cycles (v : Word) : (s.writeSp v).cycles = s.cycles := rfl
@[simp] theorem writeSp_fault (v : Word) : (s.writeSp v).fault = s.fault := rfl

@[simp] theorem writeO_regs (v : Word) : (s.writeO v).regs = s.regs := rfl
@[simp] theorem writeO_pc (v : Word) : (s.writeO v).pc = s.pc := rfl
@[simp] theorem writeO_sp (v : Word) : (s.writeO v).sp = s.sp := rfl
@[simp] theorem writeO_o (v : Word) : (s.writeO v).o = v := rfl
@[simp] theorem writeO_mem (v : Word) : (s.writeO v).mem = s.mem := rfl
@[simp] theorem writeO_skipping (v : Word) : (s.writeO v).skipping = s.skipping := rfl
@[simp] theorem writeO_cycles (v : Word) : (s.writeO v).cycles = s.cycles := rfl
@[simp] theorem writeO_fault (v : Word) : (s.writeO v).fault = s.fault := rfl

@[simp] theorem writeMem_regs (addr v : Word) : (s.writeMem addr v).regs = s.regs := rfl
@[simp] theorem writeMem_pc (addr v : Word) : (s.writeMem addr v).pc = s.pc := rfl
@[simp] theorem writeMem_sp (addr v : Word) : (s.writeMem addr v).sp = s.sp := rfl
@[simp] theorem writeMem_o (addr v : Word) : (s.writeMem addr v).o = s.o := rfl
@[simp] theorem writeMem_mem (addr v : Word) :
    (s.writeMem addr v).mem = s.mem.writeWord addr v := rfl
@[simp] theorem writeMem_skipping (addr v : Word) : (s.writeMem addr v).skipping = s.skipping := rfl
@[simp] theorem writeMem_cycles (addr v : Word) : (s.writeMem addr v).cycles = s.cycles := rfl
@[simp] theorem writeMem_fault (addr v : Word) : (s.writeMem addr v).fault = s.fault := rfl

@[simp] theorem setSkipping_regs (b : Bool) : (s.setSkipping b).regs = s.regs := rfl
@[simp] theorem setSkipping_pc (b : Bool) : (s.setSkipping b).pc = s.pc := rfl
@[simp] theorem setSkipping_sp (b : Bool) : (s.setSkipping b).sp = s.sp := rfl
@[simp] theorem setSkipping_o (b : Bool) : (s.setSkipping b).o = s.o := rfl
@[simp] theorem setSkipping_mem (b : Bool) : (s.setSkipping b).mem = s.mem := rfl
@[simp] theorem setSkipping_skipping (b : Bool) : (s.setSkipping b).skipping = b := rfl
@[simp] theorem setSkipping_cycles (b : Bool) : (s.setSkipping b).cycles = s.cycles := rfl
@[simp] theorem setSkipping_fault (b : Bool) : (s.setSkipping b).fault = s.fault := rfl

@[simp] theorem charge_regs (n : Nat) : (s.charge n).regs = s.regs := rfl
@[simp] theorem charge_pc (n : Nat) : (s.charge n).pc = s.pc := rfl
@[simp] theorem charge_sp (n : Nat) : (s.charge n).sp = s.sp := rfl
@[simp] theorem charge_o (n : Nat) : (s.charge n).o = s.o := rfl
@[simp] theorem charge_mem (n : Nat) : (s.charge n).mem = s.mem := rfl
@[simp] theorem charge_skipping (n : Nat) : (s.charge n).skipping = s.skipping := rfl
@[simp] theorem charge_cycles (n : Nat) : (s.charge n).cycles = s.cycles + n := rfl
@[simp] theorem charge_fault (n : Nat) : (s.charge n).fault = s.fault := rfl

@[simp] theorem advancePc_regs : (s.advancePc).regs = s.regs := rfl
@[simp] theorem advancePc_pc : (s.advancePc).pc = s.pc + 1 := rfl
@[simp] theorem advancePc_sp : (s.advancePc).sp = s.sp := rfl
@[simp] theorem advancePc_o : (s.advancePc).o = s.o := rfl
@[simp] theorem advancePc_mem : (s.advancePc).mem = s.mem := rfl
@[simp] theorem advancePc_skipping : (s.advancePc).skipping = s.skipping := rfl
@[simp] theorem advancePc_cycles : (s.advancePc).cycles = s.cycles := rfl
@[simp] theorem advancePc_fault : (s.advancePc).fault = s.fault := rfl

@[simp] theorem raiseUndefinedExtendedOpcode_regs (code : BitVec 6) (addr : Word) :
    (s.raiseUndefinedExtendedOpcode code addr).regs = s.regs := rfl
@[simp] theorem raiseUndefinedExtendedOpcode_pc (code : BitVec 6) (addr : Word) :
    (s.raiseUndefinedExtendedOpcode code addr).pc = s.pc := rfl
@[simp] theorem raiseUndefinedExtendedOpcode_sp (code : BitVec 6) (addr : Word) :
    (s.raiseUndefinedExtendedOpcode code addr).sp = s.sp := rfl
@[simp] theorem raiseUndefinedExtendedOpcode_o (code : BitVec 6) (addr : Word) :
    (s.raiseUndefinedExtendedOpcode code addr).o = s.o := rfl
@[simp] theorem raiseUndefinedExtendedOpcode_mem (code : BitVec 6) (addr : Word) :
    (s.raiseUndefinedExtendedOpcode code addr).mem = s.mem := rfl
@[simp] theorem raiseUndefinedExtendedOpcode_skipping (code : BitVec 6) (addr : Word) :
    (s.raiseUndefinedExtendedOpcode code addr).skipping = s.skipping := rfl
@[simp] theorem raiseUndefinedExtendedOpcode_cycles (code : BitVec 6) (addr : Word) :
    (s.raiseUndefinedExtendedOpcode code addr).cycles = s.cycles := rfl
@[simp] theorem raiseUndefinedExtendedOpcode_fault (code : BitVec 6) (addr : Word) :
    (s.raiseUndefinedExtendedOpcode code addr).fault = .undefinedExtendedOpcode code addr := rfl

/-! ## Reads -/

theorem readReg_eq (r : Reg) : s.readReg r = s.regs.get r := rfl
theorem readMem_eq (addr : Word) : s.readMem addr = s.mem.readWord addr := rfl

end Sys2Proof.Machine.State
end

