-- ==== Sys2Proof/Laws/Ops.lean ====
section
/-!
SUPPORT. Registers, locations and the two location accessors: everything a write through a location
can do, field by field.
-/

namespace Sys2Proof.Machine

/-! ## The register file -/

theorem RegFile.get_set (f : RegFile) (r : Reg) (v : Word) (r' : Reg) :
    (f.set r v).get r' = if r' = r then v else f.get r' := by
  cases r <;> cases r' <;> rfl

@[simp] theorem RegFile.get_set_same (f : RegFile) (r : Reg) (v : Word) : (f.set r v).get r = v := by
  simp [RegFile.get_set]

/-- Two register files with the same eight values are the same. -/
theorem RegFile.ext_get {f g : RegFile} (h : ∀ r, f.get r = g.get r) : f = g := by
  cases f; cases g
  have := h .A; have := h .B; have := h .C; have := h .X
  have := h .Y; have := h .Z; have := h .I; have := h .J
  simp_all [RegFile.get]

@[simp] theorem RegFile.get_reset (r : Reg) : RegFile.reset.get r = 0x0000#16 := by
  cases r <;> rfl

/-! ## A write through a location (00_scope.md R9) -/

namespace State

variable (s : State) (l : Loc) (v : Word)

@[simp] theorem locWrite_skipping : (s.locWrite l v).skipping = s.skipping := by cases l <;> rfl
@[simp] theorem locWrite_cycles : (s.locWrite l v).cycles = s.cycles := by cases l <;> rfl
@[simp] theorem locWrite_fault : (s.locWrite l v).fault = s.fault := by cases l <;> rfl

theorem locWrite_pc : (s.locWrite l v).pc = if l = .pc then v else s.pc := by cases l <;> simp [locWrite]
theorem locWrite_sp : (s.locWrite l v).sp = if l = .sp then v else s.sp := by cases l <;> simp [locWrite]
theorem locWrite_o : (s.locWrite l v).o = if l = .ov then v else s.o := by cases l <;> simp [locWrite]

theorem locWrite_get (r : Reg) :
    (s.locWrite l v).regs.get r = if l = .reg r then v else s.regs.get r := by
  cases l <;> simp [locWrite, RegFile.get_set, eq_comm]

theorem locWrite_readWord (a : Word) :
    (s.locWrite l v).mem.readWord a = if l = .mem a then v else s.mem.readWord a := by
  cases l <;> simp [locWrite, Memory.readWord_writeWord, eq_comm]

/-- A write through a location that is no memory cell leaves memory as it is, as data. -/
theorem locWrite_mem_of_not_mem (h : ∀ a, l ≠ .mem a) : (s.locWrite l v).mem = s.mem := by
  cases l <;> simp_all [locWrite]

theorem wf_locWrite (h : s.mem.wf = true) : (s.locWrite l v).mem.wf = true := by
  cases l <;> simp [locWrite, h, Memory.wf_writeWord]

/-- What is written through a location is read back through it, but for a literal. -/
theorem locRead_locWrite (h : ∀ w, l ≠ .imm w) : (s.locWrite l v).locRead l = v := by
  cases l <;> simp_all [locWrite, locRead, readReg_eq, readMem_eq]

/-! ## The overflow write -/

variable (ov : Option Word)

@[simp] theorem writeOverflow_regs : (s.writeOverflow ov).regs = s.regs := by cases ov <;> rfl
@[simp] theorem writeOverflow_pc : (s.writeOverflow ov).pc = s.pc := by cases ov <;> rfl
@[simp] theorem writeOverflow_sp : (s.writeOverflow ov).sp = s.sp := by cases ov <;> rfl
@[simp] theorem writeOverflow_mem : (s.writeOverflow ov).mem = s.mem := by cases ov <;> rfl
@[simp] theorem writeOverflow_skipping : (s.writeOverflow ov).skipping = s.skipping := by
  cases ov <;> rfl
@[simp] theorem writeOverflow_cycles : (s.writeOverflow ov).cycles = s.cycles := by cases ov <;> rfl
@[simp] theorem writeOverflow_fault : (s.writeOverflow ov).fault = s.fault := by cases ov <;> rfl
@[simp] theorem writeOverflow_o : (s.writeOverflow ov).o = ov.getD s.o := by cases ov <;> rfl

end State

end Sys2Proof.Machine
end

