-- ==== Sys2Proof/Laws/Operands.lean ====
section
/-!
SUPPORT. Everything resolving an operand can do (the table of 41_operands.md R156), once; then what
sampling two operands can do, and what stepping over one can do.
-/

namespace Sys2Proof.Machine

/-! ## One operand -/

section
variable (op : Operand) (s : State)

@[simp] theorem resolve_regs : (resolve op s).2.regs = s.regs := by cases op <;> rfl
@[simp] theorem resolve_o : (resolve op s).2.o = s.o := by cases op <;> rfl
@[simp] theorem resolve_mem : (resolve op s).2.mem = s.mem := by cases op <;> rfl
@[simp] theorem resolve_skipping : (resolve op s).2.skipping = s.skipping := by cases op <;> rfl
@[simp] theorem resolve_fault : (resolve op s).2.fault = s.fault := by cases op <;> rfl

@[simp] theorem resolve_cycles : (resolve op s).2.cycles = s.cycles + operandCost op := by
  cases op <;> rfl

theorem resolve_pc :
    (resolve op s).2.pc = if op.takesNextWord then s.pc + 1 else s.pc := by cases op <;> rfl

theorem resolve_sp :
    (resolve op s).2.sp =
      if op = .pop then s.sp + 1 else if op = .push then s.sp - 1 else s.sp := by
  cases op <;> rfl

theorem skipAdvance_eq :
    skipAdvance op s = { s with pc := if op.takesNextWord then s.pc + 1 else s.pc } := by
  unfold skipAdvance
  split_ifs <;> rfl

end

/-! ## The two operands of a basic instruction -/

section
variable (a b : Operand) (s : State)

@[simp] theorem sample_regs : (sample a b s).st.regs = s.regs := by simp [sample]
@[simp] theorem sample_o : (sample a b s).st.o = s.o := by simp [sample]
@[simp] theorem sample_mem : (sample a b s).st.mem = s.mem := by simp [sample]
@[simp] theorem sample_skipping : (sample a b s).st.skipping = s.skipping := by simp [sample]
@[simp] theorem sample_fault : (sample a b s).st.fault = s.fault := by simp [sample]

@[simp] theorem sample_cycles :
    (sample a b s).st.cycles = s.cycles + (operandCost a + operandCost b) := by
  simp [sample, Nat.add_assoc]

end

end Sys2Proof.Machine
end

