-- ==== Sys2Proof/Laws/Meanings.lean ====
section
/-!
SUPPORT. What the operations that the meanings share can do, field by field: the two orders of writing
a result and `o`, the end of a conditional, and the undefined extended opcodes.
-/

namespace Sys2Proof.Machine

/-! ## The writes of a basic instruction -/

section
variable (p : Sampled) (r : Word) (ov : Option Word)

theorem writeResultThenOverflow_o :
    (writeResultThenOverflow p r ov).o =
      ov.getD (if p.la = .ov then r else p.st.o) := by
  simp [writeResultThenOverflow, State.locWrite_o]

theorem writeOverflowThenResult_o :
    (writeOverflowThenResult p r ov).o =
      if p.la = .ov then r else ov.getD p.st.o := by
  simp [writeOverflowThenResult, State.locWrite_o]

@[simp] theorem writeResultThenOverflow_skipping :
    (writeResultThenOverflow p r ov).skipping = p.st.skipping := by simp [writeResultThenOverflow]
@[simp] theorem writeResultThenOverflow_cycles :
    (writeResultThenOverflow p r ov).cycles = p.st.cycles := by simp [writeResultThenOverflow]
@[simp] theorem writeResultThenOverflow_fault :
    (writeResultThenOverflow p r ov).fault = p.st.fault := by simp [writeResultThenOverflow]
theorem writeResultThenOverflow_pc :
    (writeResultThenOverflow p r ov).pc = if p.la = .pc then r else p.st.pc := by
  simp [writeResultThenOverflow, State.locWrite_pc]
theorem writeResultThenOverflow_sp :
    (writeResultThenOverflow p r ov).sp = if p.la = .sp then r else p.st.sp := by
  simp [writeResultThenOverflow, State.locWrite_sp]
theorem writeResultThenOverflow_get (q : Reg) :
    (writeResultThenOverflow p r ov).regs.get q =
      if p.la = .reg q then r else p.st.regs.get q := by
  simp [writeResultThenOverflow, State.locWrite_get]
theorem writeResultThenOverflow_readWord (a : Word) :
    (writeResultThenOverflow p r ov).mem.readWord a =
      if p.la = .mem a then r else p.st.mem.readWord a := by
  simp [writeResultThenOverflow, State.locWrite_readWord]
theorem wf_writeResultThenOverflow (h : p.st.mem.wf = true) :
    (writeResultThenOverflow p r ov).mem.wf = true := by
  simp [writeResultThenOverflow, State.wf_locWrite, h]

@[simp] theorem writeOverflowThenResult_skipping :
    (writeOverflowThenResult p r ov).skipping = p.st.skipping := by simp [writeOverflowThenResult]
@[simp] theorem writeOverflowThenResult_cycles :
    (writeOverflowThenResult p r ov).cycles = p.st.cycles := by simp [writeOverflowThenResult]
@[simp] theorem writeOverflowThenResult_fault :
    (writeOverflowThenResult p r ov).fault = p.st.fault := by simp [writeOverflowThenResult]
theorem writeOverflowThenResult_pc :
    (writeOverflowThenResult p r ov).pc = if p.la = .pc then r else p.st.pc := by
  simp [writeOverflowThenResult, State.locWrite_pc]
theorem writeOverflowThenResult_sp :
    (writeOverflowThenResult p r ov).sp = if p.la = .sp then r else p.st.sp := by
  simp [writeOverflowThenResult, State.locWrite_sp]
theorem writeOverflowThenResult_get (q : Reg) :
    (writeOverflowThenResult p r ov).regs.get q =
      if p.la = .reg q then r else p.st.regs.get q := by
  simp [writeOverflowThenResult, State.locWrite_get]
theorem writeOverflowThenResult_readWord (a : Word) :
    (writeOverflowThenResult p r ov).mem.readWord a =
      if p.la = .mem a then r else p.st.mem.readWord a := by
  simp [writeOverflowThenResult, State.locWrite_readWord]
theorem wf_writeOverflowThenResult (h : p.st.mem.wf = true) :
    (writeOverflowThenResult p r ov).mem.wf = true := by
  simp [writeOverflowThenResult, State.wf_locWrite, h]

end

/-! ## The end of a conditional (43_conditional.md R200) -/

/-- Only `skipping` and `cycles` are touched. -/
theorem concludeConditional_eq (st : State) (c : Bool) :
    concludeConditional st c =
      { st with
        skipping := if c then st.skipping else true
        cycles := st.cycles + if c then 2 else 3 } := by
  cases c <;> rfl

/-! ## Undefined extended opcodes (44_extended.md R222) -/

theorem undefinedExtended_eq (code : BitVec 6) (a : Operand) (s : State) :
    undefinedExtended code a s =
      { (resolve a s).2 with fault := .undefinedExtendedOpcode code (s.pc - 1) } := rfl

end Sys2Proof.Machine
end

