-- ==== Sys2Proof/Laws/PerInstr.lean ====
section
/-!
SUPPORT. The family MatchesTable: an instruction's word has exactly the fixed bits that its row of
opcode_table.json gives (30_encoding.md R103).
-/

namespace Sys2Proof.Laws.MatchesTable

def Statement (i : Instr) : Prop := i.encodeWord &&& i.rowMask = i.rowMatch

/-- A mask of the low ten bits does not see `f_b`. -/
theorem packWord_and_low (b a : BitVec 6) (op : BitVec 4) (m : BitVec 10) :
    packWord b a op &&& m.setWidth 16 = packWord 0 a op &&& m.setWidth 16 := by
  apply BitVec.eq_of_getLsbD_eq
  intro i hi
  simp only [packWord, BitVec.getLsbD_and, BitVec.getLsbD_append, BitVec.getLsbD_setWidth]
  by_cases h1 : i < 4
  · simp [h1]
  · by_cases h2 : i - 4 < 6
    · simp [h1, h2]
    · simp [BitVec.getLsbD_of_ge m i (by omega)]

/-- A mask of the low four bits sees `f_op` alone. -/
theorem packWord_and_op (b a : BitVec 6) (op : BitVec 4) :
    packWord b a op &&& 0x000F#16 = op.setWidth 16 := by
  rw [show (0x000F#16 : Word) = (0x00F#10).setWidth 16 from rfl, packWord_and_low]
  revert a op
  decide

theorem set (a b : Operand) : Statement (.set a b) := packWord_and_op _ _ _
theorem add (a b : Operand) : Statement (.add a b) := packWord_and_op _ _ _
theorem sub (a b : Operand) : Statement (.sub a b) := packWord_and_op _ _ _
theorem mul (a b : Operand) : Statement (.mul a b) := packWord_and_op _ _ _
theorem div (a b : Operand) : Statement (.div a b) := packWord_and_op _ _ _
theorem mod (a b : Operand) : Statement (.mod a b) := packWord_and_op _ _ _
theorem shl (a b : Operand) : Statement (.shl a b) := packWord_and_op _ _ _
theorem shr (a b : Operand) : Statement (.shr a b) := packWord_and_op _ _ _
theorem and (a b : Operand) : Statement (.and a b) := packWord_and_op _ _ _
theorem bor (a b : Operand) : Statement (.bor a b) := packWord_and_op _ _ _
theorem xor (a b : Operand) : Statement (.xor a b) := packWord_and_op _ _ _
theorem ife (a b : Operand) : Statement (.ife a b) := packWord_and_op _ _ _
theorem ifn (a b : Operand) : Statement (.ifn a b) := packWord_and_op _ _ _
theorem ifg (a b : Operand) : Statement (.ifg a b) := packWord_and_op _ _ _
theorem ifb (a b : Operand) : Statement (.ifb a b) := packWord_and_op _ _ _

theorem jsr (a : Operand) : Statement (.jsr a) :=
  (packWord_and_low a.code 0x01#6 0#4 0x3FF#10).trans (by simp only [Instr.rowMatch]; decide)

theorem undefExt00 (a : Operand) : Statement (.undefExt00 a) :=
  (packWord_and_low a.code 0x00#6 0#4 0x3FF#10).trans (by simp only [Instr.rowMatch]; decide)

theorem undefExt0203 (e : BitVec 1) (a : Operand) : Statement (.undefExt0203 e a) :=
  (packWord_and_low a.code (0b00001#5 ++ e) 0#4 0x3EF#10).trans (by simp only [Instr.rowMatch]; revert e; decide)

theorem undefExt0407 (e : BitVec 2) (a : Operand) : Statement (.undefExt0407 e a) :=
  (packWord_and_low a.code (0b0001#4 ++ e) 0#4 0x3CF#10).trans (by simp only [Instr.rowMatch]; revert e; decide)

theorem undefExt080F (e : BitVec 3) (a : Operand) : Statement (.undefExt080F e a) :=
  (packWord_and_low a.code (0b001#3 ++ e) 0#4 0x38F#10).trans (by simp only [Instr.rowMatch]; revert e; decide)

theorem undefExt101F (e : BitVec 4) (a : Operand) : Statement (.undefExt101F e a) :=
  (packWord_and_low a.code (0b01#2 ++ e) 0#4 0x30F#10).trans (by simp only [Instr.rowMatch]; revert e; decide)

theorem undefExt203F (e : BitVec 5) (a : Operand) : Statement (.undefExt203F e a) :=
  (packWord_and_low a.code (0b1#1 ++ e) 0#4 0x20F#10).trans (by simp only [Instr.rowMatch]; revert e; decide)

end Sys2Proof.Laws.MatchesTable
end

