-- ==== Sys2Proof/Laws/Step.lean ====
section
/-!
SUPPORT. The step taken apart: what each of its paths does, the skip path as one update, and what
placing an instruction does to the cell the step fetches.
-/

namespace Sys2Proof.Machine

/-- Stepping over operands moves `pc` past their next words and changes nothing else. -/
theorem foldl_skipAdvance (ops : List Operand) (s : State) :
    ops.foldl (fun t op => skipAdvance op t) s =
      { s with pc := s.pc + BitVec.ofNat 16 (ops.countP Operand.takesNextWord) } := by
  induction ops generalizing s with
  | nil => simp
  | cons op ops ih =>
    rw [List.foldl_cons, ih, skipAdvance_eq]
    cases h : op.takesNextWord
    · simp [h]
    · simp only [h, if_true, List.countP_cons_of_pos, BitVec.ofNat_add]
      congr 1
      rw [BitVec.add_assoc, BitVec.add_comm 1]; rfl

/-- The skip path: `pc` past the skipped instruction's next words, `skipping` cleared. -/
theorem skipInstr_eq (i : Instr) (s : State) :
    skipInstr i s =
      { s with pc := s.pc + BitVec.ofNat 16 i.nextWords, skipping := false } := by
  simp only [skipInstr, foldl_skipAdvance, Instr.nextWords]
  rfl

/-- The three paths of a step, by its two flags: everything a step can be. -/
theorem step_paths (s : State) :
    (s.fault ≠ .none ∧ step s = .next s) ∨
    (s.fault = .none ∧ s.skipping = true ∧
      step s = .next (skipInstr (decodeWord (s.mem.readWord s.pc)) s.advancePc)) ∨
    (s.fault = .none ∧ s.skipping = false ∧
      step s = exec (decodeWord (s.mem.readWord s.pc)) s.advancePc) := by
  by_cases hf : s.fault = .none
  · cases hk : s.skipping
    · exact .inr (.inr ⟨hf, rfl, by simp [step, halted, fetch, hf, hk, State.readMem_eq]⟩)
    · exact .inr (.inl ⟨hf, rfl, by simp [step, halted, fetch, hf, hk, State.readMem_eq]⟩)
  · exact .inl ⟨hf, by simp [step, halted, hf]⟩

/-- A run of one more step, on any machine: the first step answers a next state, and the run goes on
from it. -/
theorem run_succ_of_next (M : Host.Core) {k : Nat} {s t : M.State} (h : M.step s = .next t) :
    M.run (k + 1) s = M.run k t := by
  simp only [Host.Core.run, h]

end Sys2Proof.Machine
end

