-- ==== Sys2Proof/Tests/Slice0.lean ====
section
/-!
SUPPORT. The model's own tests. Expected values come from the spec: words from the encodings of
30_encoding.md R80 to R89, results from 95_test_vectors.md (its part is named at each group). At the
end, one witness for the hypotheses of every statement that has any.
-/

namespace Sys2Proof.Tests

open Sys2Proof.Machine Sys2Proof.Claims

/-! ## WellFormed: `[J]` is refused in every operand position (30_encoding.md R95) -/

theorem test_wf_refuses_indirect_j_as_a : (Instr.set (.indirect .J) .pop).wf = false := by decide
theorem test_wf_refuses_indirect_j_as_b : (Instr.ifb .pop (.indirect .J)).wf = false := by decide
theorem test_wf_refuses_indirect_j_of_jsr : (Instr.jsr (.indirect .J)).wf = false := by decide
theorem test_wf_refuses_indirect_j_of_undefined :
    (Instr.undefExt203F 31 (.indirect .J)).wf = false := by decide
theorem test_wf_accepts : (Instr.set (.indirect .I) (.indexed .J)).wf = true := by decide

/-! ## Decoding: `f_b`, `f_a`, `f_op` written out (R80, R88, R89, R103) -/

theorem test_decode_set :
    decodeWord (0b011111#6 ++ 0b000000#6 ++ 0b0001#4) = .set (.reg .A) .literal := by decide
theorem test_decode_add :
    decodeWord (0b000001#6 ++ 0b000000#6 ++ 0b0010#4) = .add (.reg .A) (.reg .B) := by decide
theorem test_decode_sub :
    decodeWord (0b100001#6 ++ 0b011100#6 ++ 0b0011#4) = .sub .pc (.short 1) := by decide
theorem test_decode_mul :
    decodeWord (0b011111#6 ++ 0b000001#6 ++ 0b0100#4) = .mul (.reg .B) .literal := by decide
theorem test_decode_div :
    decodeWord (0b000010#6 ++ 0b011101#6 ++ 0b0101#4) = .div .o (.reg .C) := by decide
theorem test_decode_mod :
    decodeWord (0b001110#6 ++ 0b001000#6 ++ 0b0110#4) = .mod (.indirect .A) (.indirect .I) := by
  decide
theorem test_decode_shl :
    decodeWord (0b011000#6 ++ 0b010000#6 ++ 0b0111#4) = .shl (.indexed .A) .pop := by decide
theorem test_decode_shr :
    decodeWord (0b010111#6 ++ 0b001111#6 ++ 0b1000#4) = .shr .indexedJ (.indexed .J) := by decide
theorem test_decode_and :
    decodeWord (0b011001#6 ++ 0b011010#6 ++ 0b1001#4) = .and .push .peek := by decide
theorem test_decode_bor :
    decodeWord (0b011011#6 ++ 0b011110#6 ++ 0b1010#4) = .bor .absolute .sp := by decide
theorem test_decode_xor :
    decodeWord (0b000101#6 ++ 0b000100#6 ++ 0b1011#4) = .xor (.reg .Y) (.reg .Z) := by decide
theorem test_decode_ife :
    decodeWord (0b100000#6 ++ 0b011000#6 ++ 0b1100#4) = .ife .pop (.short 0) := by decide
theorem test_decode_ifn :
    decodeWord (0b000001#6 ++ 0b000000#6 ++ 0b1101#4) = .ifn (.reg .A) (.reg .B) := by decide
theorem test_decode_ifg :
    decodeWord (0b000110#6 ++ 0b100011#6 ++ 0b1110#4) = .ifg (.short 3) (.reg .I) := by decide
theorem test_decode_ifb :
    decodeWord (0b111111#6 ++ 0b111111#6 ++ 0b1111#4) = .ifb (.short 31) (.short 31) := by decide
theorem test_decode_jsr :
    decodeWord (0b011111#6 ++ 0b000001#6 ++ 0b0000#4) = .jsr .literal := by decide
theorem test_decode_undefExt00 :
    decodeWord (0b011000#6 ++ 0b000000#6 ++ 0b0000#4) = .undefExt00 .pop := by decide
theorem test_decode_undefExt0203 :
    decodeWord (0b011010#6 ++ 0b000011#6 ++ 0b0000#4) = .undefExt0203 1 .push := by decide
theorem test_decode_undefExt0407 :
    decodeWord (0b000000#6 ++ 0b000110#6 ++ 0b0000#4) = .undefExt0407 2 (.reg .A) := by decide
theorem test_decode_undefExt080F :
    decodeWord (0b000000#6 ++ 0b001101#6 ++ 0b0000#4) = .undefExt080F 5 (.reg .A) := by decide
theorem test_decode_undefExt101F :
    decodeWord (0b001000#6 ++ 0b010000#6 ++ 0b0000#4) = .undefExt101F 0 (.indirect .A) := by decide
theorem test_decode_undefExt203F :
    decodeWord (0b011110#6 ++ 0b100000#6 ++ 0b0000#4) = .undefExt203F 0 .absolute := by decide

/-- The codes where one class ends and the next begins (R84). -/
theorem test_operand_code_boundaries :
    [0x00#6, 0x07#6, 0x08#6, 0x0E#6, 0x0F#6, 0x10#6, 0x17#6, 0x18#6, 0x1F#6, 0x20#6, 0x3F#6].map
        Operand.ofCode =
      [.reg .A, .reg .J, .indirect .A, .indirect .I, .indexedJ, .indexed .A, .indexed .J, .pop,
        .literal, .short 0, .short 31] := by decide

theorem test_decode_truncated_word : decodeBytes [0x7C#8] = .error .truncatedInstructionWord := by
  rfl
theorem test_decode_truncated_next_word :
    decodeBytes [0x7C#8, 0x01#8, 0x00#8] = .error .truncatedNextWord := by rfl
theorem test_decode_table_word : decodeTableWord 16 0x7C01 = some (.set (.reg .A) .literal) := by
  decide
theorem test_encode_three_words :
    encodeBytes (.set .absolute .literal) [0x2000#16, 0xBEEF#16] =
      [0x7D#8, 0xE1#8, 0x20#8, 0x00#8, 0xBE#8, 0xEF#8] := by decide

/-! ## Steps -/

/-- Reset, but for the registers A and B, `o` = 0x1234, and words placed from address 0 on. -/
def start (ws : List Word) (a b : Word) : State :=
  storeWords { State.reset with
    regs := (RegFile.reset.set .A a).set .B b
    o := 0x1234#16 } 0 ws

/-- What a step answers, seen through `f`. -/
def after {α : Type} (f : State → α) (s : State) : Option α :=
  match step s with
  | .next t => some (f t)
  | .fault _ => none
  | .refused _ => none

/-- A, `o` and `cycles` after a step. -/
def aluAfter (w a b : Word) : Option (Word × Word × Nat) :=
  after (fun t => (t.regs.a, t.o, t.cycles)) (start [w] a b)

/-! Part 4. -/

theorem test_set : aluAfter 0x0401 0x1111 0x2222 = some (0x2222, 0x1234, 1) := by decide
theorem test_add_carry : aluAfter 0x0402 0xFFFF 0xFFFF = some (0xFFFE, 0x0001, 2) := by decide
theorem test_add_no_carry : aluAfter 0x0402 0x7FFF 0x0001 = some (0x8000, 0x1234, 2) := by decide
theorem test_sub_borrow : aluAfter 0x0403 0x0000 0xFFFF = some (0x0001, 0xFFFF, 2) := by decide
theorem test_sub_no_borrow : aluAfter 0x0403 0x8000 0x0001 = some (0x7FFF, 0x1234, 2) := by decide
theorem test_mul : aluAfter 0x0404 0x1234 0x5678 = some (0x0060, 0x0626, 2) := by decide
theorem test_div : aluAfter 0x0405 0x0100 0x0007 = some (0x0024, 0x9249, 3) := by decide
theorem test_div_by_zero : aluAfter 0x0405 0x0007 0x0000 = some (0x0000, 0x0000, 3) := by decide
theorem test_mod : aluAfter 0x0406 0xFFFF 0x0100 = some (0x00FF, 0x1234, 3) := by decide
theorem test_mod_by_zero : aluAfter 0x0406 0x0007 0x0000 = some (0x0000, 0x0000, 3) := by decide
theorem test_shl_by_20 : aluAfter 0x0407 0xFFFF 0x0014 = some (0x0000, 0xFFF0, 2) := by decide
theorem test_shl_by_32 : aluAfter 0x0407 0xFFFF 0x0020 = some (0x0000, 0x0000, 2) := by decide
theorem test_shr_by_4 : aluAfter 0x0408 0xFFFF 0x0004 = some (0x0FFF, 0xF000, 2) := by decide
theorem test_shr_by_17 : aluAfter 0x0408 0xFFFF 0x0011 = some (0x0000, 0x7FFF, 2) := by decide
theorem test_and : aluAfter 0x0409 0xF0F0 0xFF00 = some (0xF000, 0x1234, 1) := by decide
theorem test_bor : aluAfter 0x040A 0xF0F0 0x0F00 = some (0xFFF0, 0x1234, 1) := by decide
theorem test_xor : aluAfter 0x040B 0xF0F0 0xFF00 = some (0x0FF0, 0x1234, 1) := by decide

/-! Part 4.1: `o` as destination, the later write stays (D4). -/

theorem test_mul_into_o :
    after (·.o) { start [0x05D4] 0 0x0300 with o := 0x0100 } = some 0x0003 := by decide
theorem test_shl_into_o :
    after (·.o) { start [0x05D7] 0 0x0004 with o := 0xFFFF } = some 0xFFF0 := by decide

/-! Part 5. -/

/-- `skipping` and `cycles` after a step. -/
def testAfter (w a b : Word) : Option (Bool × Nat) :=
  after (fun t => (t.skipping, t.cycles)) (start [w] a b)

theorem test_ife_true : testAfter 0x040C 0x0005 0x0005 = some (false, 2) := by decide
theorem test_ife_false : testAfter 0x040C 0x8000 0x0000 = some (true, 3) := by decide
theorem test_ifn_true : testAfter 0x040D 0x0000 0xFFFF = some (false, 2) := by decide
theorem test_ifn_false : testAfter 0x040D 0x0005 0x0005 = some (true, 3) := by decide
theorem test_ifg_unsigned : testAfter 0x040E 0x8000 0x7FFF = some (false, 2) := by decide
theorem test_ifg_false : testAfter 0x040E 0x0005 0x0005 = some (true, 3) := by decide
theorem test_ifb_true : testAfter 0x040F 0x00F0 0x0010 = some (false, 2) := by decide
theorem test_ifb_false : testAfter 0x040F 0x8000 0x7FFF = some (true, 3) := by decide

/-! Part 7: JSR. -/

theorem test_jsr :
    after (fun t => (t.pc, t.sp, t.readMem 0xFFFE, t.cycles)) (start [0x7C10, 0x0100] 0 0) =
      some (0x0100, 0xFFFE, 0x0002, 3) := by decide
theorem test_jsr_pop :
    after (fun t => (t.pc, t.sp, t.readMem 0x8000))
        ({ start [0x6010] 0 0 with sp := 0x8000 }.writeMem 0x8000 0x1111) =
      some (0x1111, 0x8000, 0x0001) := by decide

/-! Part 8: faults. One undefined row a theorem; the latch, `pc`, `sp` and `cycles`. -/

/-- The latch, `pc`, `sp` and `cycles` after a step. -/
def faultAfter (ws : List Word) : Option (FaultLatch × Word × Word × Nat) :=
  after (fun t => (t.fault, t.pc, t.sp, t.cycles))
    (storeWords { State.reset with pc := 0x0040, sp := 0x8000 } 0x0040 ws)

theorem test_undefExt00 : faultAfter [0x6000] =
    some (.undefinedExtendedOpcode 0x00 0x0040, 0x0041, 0x8001, 0) := by decide
theorem test_undefExt0203 : faultAfter [0x6820] =
    some (.undefinedExtendedOpcode 0x02 0x0040, 0x0041, 0x7FFF, 0) := by decide
theorem test_undefExt0407 : faultAfter [0x0050] =
    some (.undefinedExtendedOpcode 0x05 0x0040, 0x0041, 0x8000, 0) := by decide
theorem test_undefExt080F : faultAfter [0x00F0] =
    some (.undefinedExtendedOpcode 0x0F 0x0040, 0x0041, 0x8000, 0) := by decide
theorem test_undefExt101F : faultAfter [0x2100] =
    some (.undefinedExtendedOpcode 0x10 0x0040, 0x0041, 0x8000, 1) := by decide
theorem test_undefExt203F : faultAfter [0x7A00, 0x1234] =
    some (.undefinedExtendedOpcode 0x20 0x0040, 0x0042, 0x8000, 1) := by decide

/-! Parts 3.3 and 6: wrapping, and skipping. -/

theorem test_next_word_wraps :
    after (fun t => (t.regs.a, t.pc))
        (storeWords { State.reset with pc := 0xFFFF } 0xFFFF [0x7C01, 0x0030]) =
      some (0x0030, 0x0001) := by decide
theorem test_skip_three_words :
    after (fun t => (t.pc, t.skipping, t.cycles))
        (storeWords { State.reset with pc := 0x0020, skipping := true } 0x0020
          [0x5CF1, 0x0001, 0x0002]) =
      some (0x0023, false, 0) := by decide
theorem test_skip_undefined :
    after (fun t => (t.pc, t.fault))
        (storeWords { State.reset with pc := 0x0020, skipping := true } 0x0020 [0x7FF0, 0x1234]) =
      some (0x0022, .none) := by decide

/-! Part 9: the image (a stream a byte short is refused), and the placing of an instruction. -/

theorem test_short_image (image : List Byte) (s : State) (h : image.length = 0x1FFFF) :
    loadImage image s = none := by
  simp [loadImage, Config.imageBytes, h]
theorem test_with_fetch_word :
    after (fun t => (t.regs.a, t.pc)) (State.reset.withFetchWord 32 0x00307C01) =
      some (0x0030, 0x0002) := by decide

/-! ## Witnesses: a concrete state and operands that meet every hypothesis of a statement -/

/-- `SUB PC, 1` at address 0. -/
def idle : State := start [0x85C3] 0 0

/-- The state after a step of `idle`. -/
def idleNext : State := { idle with cycles := 2 }

theorem idle_inv : idle.Inv := ⟨by decide, by decide, by decide⟩
theorem idle_step : step idle = .next idleNext := by rfl

theorem witness_StepKeepsTheInvariant : ∃ s t : State, s.Inv ∧ step s = .next t :=
  ⟨idle, idleNext, idle_inv, idle_step⟩
theorem witness_HostRequestKeepsTheInvariant : ∃ s : State, s.Inv := ⟨idle, idle_inv⟩
theorem witness_StepRunsTheDecodedInstruction :
    idle.fault = .none ∧ idle.skipping = false ∧
      decodeWord (idle.mem.readWord idle.pc) = .sub .pc (.short 1) := by decide
theorem witness_HaltedCoreStepChangesNothing :
    (idle.raiseUndefinedExtendedOpcode 0x3F 0).fault ≠ .none := by decide

/-- `idle` with the word at 0 replaced, and the instruction there to be skipped. -/
def skippingAt (w : Word) : State := { start [w] 0 0 with skipping := true }

theorem witness_SkippedStepOnlyMovesPcOverTheInstruction :
    (skippingAt 0x5CF1).fault = .none ∧ (skippingAt 0x5CF1).skipping = true := by decide
theorem witness_SkippedStepOnlyMovesPcOverTheInstruction_extended :
    (skippingAt 0x7FF0).fault = .none ∧ (skippingAt 0x7FF0).skipping = true ∧
      opField ((skippingAt 0x7FF0).mem.readWord 0) = 0 := by decide
theorem witness_SkipsDoNotChain :
    ∀ p ∈ [(0x040C#16, Instr.ife (.reg .A) (.reg .B)), (0x040D#16, .ifn (.reg .A) (.reg .B)),
        (0x040E#16, .ifg (.reg .A) (.reg .B)), (0x040F#16, .ifb (.reg .A) (.reg .B))],
      (skippingAt p.1).fault = .none ∧ (skippingAt p.1).skipping = true ∧
      decodeWord ((skippingAt p.1).mem.readWord (skippingAt p.1).pc) = p.2 := by decide
theorem witness_DecodeOfEncodeIsTheInstruction :
    (Instr.set (.indirect .I) .indexedJ).wf = true := by decide
theorem witness_ByteStreamRoundTrip :
    (Instr.set .absolute .literal).wf = true ∧
      [0x2000#16, 0xBEEF#16].length = (Instr.set .absolute .literal).nextWords ∧
      [0x2000#16].length < (Instr.set .absolute .literal).nextWords := by decide
theorem witness_CutByteStreamIsRefusedByName :
    (Instr.set .absolute .literal).wf = true ∧
      [0x2000#16, 0xBEEF#16].length = (Instr.set .absolute .literal).nextWords ∧
      ∀ n ∈ [0, 1, 2, 5], n < 2 * (Instr.set .absolute .literal).length := by decide
theorem witness_WritesToLiteralsAreDiscarded_long :
    writesA (.add .literal .pop) .literal .pop ∧
      (Operand.literal = .literal ∨ ∃ n, Operand.literal = .short n) := by simp [writesA]
theorem witness_WritesToLiteralsAreDiscarded_short :
    writesA (.shr (.short 31) .pop) (.short 31) .pop ∧
      (Operand.short 31 = .literal ∨ ∃ n, Operand.short 31 = .short n) := by simp [writesA]
theorem witness_DivWritesQuotientAndFraction_and_ModWritesTheRemainder :
    (sample (.reg .A) (.reg .B) (start [] 7 0)).vb = 0 ∧
      (sample (.reg .A) (.reg .B) (start [] 7 1)).vb ≠ 0 := by decide
theorem witness_OverflowChangesOnlyWhereListed :
    after (·.o) (start [0x0402] 0xFFFF 1) = some 0x0001 ∧ (start [0x0402] 0xFFFF 1).o ≠ 0x0001 := by
  decide

/-- Of SkippingIsSetExactlyByAFalseConditional, FaultIsLatchedExactlyByUndefinedExtendedOpcodes,
StepCostsWhatTheTableSays, CyclesNeverDecrease and StepRequestStepsAndReportsTheLatch. -/
theorem witness_of_a_step_with_no_fault : idle.fault = .none ∧ step idle = .next idleNext :=
  ⟨by decide, idle_step⟩

theorem witness_SetPushPopChangesOnlyCycles : idle.mem.wf = true := by decide

/-- `SUB PC, 1` at the top of memory, where the subtraction borrows. -/
def idleAtTop : State := storeWords { State.reset with pc := 0xFFFF } 0xFFFF [0x85C3]

theorem witness_SubPcOneJumpsToItself :
    idle.fault = .none ∧ idle.skipping = false ∧ idle.mem.readWord idle.pc = 0x85C3 := by decide
theorem witness_SubPcOneJumpsToItself_at_top :
    idleAtTop.fault = .none ∧ idleAtTop.skipping = false ∧ idleAtTop.pc = 0xFFFF ∧
      idleAtTop.mem.readWord idleAtTop.pc = 0x85C3 := by decide
theorem witness_SafeRunLatchesNoFaultOnTheWay :
    SafeRun (1 + 1) idle { idle with cycles := 4 } ∧ core.run 1 idle = .next idleNext :=
  ⟨⟨rfl, by decide⟩, rfl⟩
theorem witness_LoadedImageIsTheMemory_long :
    ∃ image : List Byte, 0x20000 ≤ image.length :=
  ⟨List.replicate 0x20000 0x85#8, List.length_replicate.ge⟩
theorem witness_LoadedImageIsTheMemory_short_and_LoadErrorChangesNothing :
    ∃ image : List Byte, image.length = 0x1FFFF ∧ image.length < 0x20000 :=
  ⟨List.replicate 0x1FFFF 0x85#8, List.length_replicate, by
    rw [List.length_replicate]; decide⟩
theorem witness_HostSetsNeitherSkippingNorCyclesNorFault :
    HostRequest.writePc 3 ≠ .step ∧ HostRequest.writePc 3 ≠ .reset := by decide
theorem witness_MemoriesThatReadAlikeAreEqual :
    ∃ m m' : Memory, m.wf = true ∧ m'.wf = true ∧ m ≠ [] ∧ ∀ a, m.readWord a = m'.readWord a :=
  ⟨idle.mem, idle.mem, by decide, by decide, by decide, fun _ => rfl⟩

end Sys2Proof.Tests
end

section
/-!
PROOFS of 30_encoding.md: which operand codes consume a next word (R85).
-/

namespace Sys2Proof

open Sys2Proof.Claims

/-! ## The next-word predicate (R85), of the decoded form and of the raw code -/

/-- Row by row of the code table (R84). A row of one code answers by its form; a row that is a range
lies wholly inside or wholly outside the listed codes. -/
theorem Operand.takesNextWord_ofCode_iff (c : BitVec 6) :
    (Operand.ofCode c).takesNextWord = true ↔
      (0x0F#6 ≤ c ∧ c ≤ 0x17#6) ∨ c = 0x1E#6 ∨ c = 0x1F#6 := by
  fun_cases Operand.ofCode c
  case case1 hreg =>
    simp only [Operand.takesNextWord, Bool.false_eq_true, false_iff]
    bv_omega
  case case2 hindirect =>
    simp only [Operand.takesNextWord, Bool.false_eq_true, false_iff]
    bv_omega
  case case3 hindexedJ => simp [Operand.takesNextWord, hindexedJ]
  case case4 hafter _ hindexed =>
    have hfrom : 0x0F#6 ≤ c := by bv_omega
    simp [Operand.takesNextWord, hfrom, hindexed]
  all_goals simp [Operand.takesNextWord, *]

/-- The bounds of `nw`, stated on words, are the same bounds on the 6-bit code. -/
theorem Claims.nw_setWidth_iff (c : BitVec 6) :
    nw (c.setWidth 16) = true ↔ (0x0F#6 ≤ c ∧ c ≤ 0x17#6) ∨ c = 0x1E#6 ∨ c = 0x1F#6 := by
  simp only [nw, Bool.or_eq_true, decide_eq_true_eq, or_assoc]
  bv_omega

/-- Settles O15: the decoded form and the raw predicate answer yes for the same codes. -/
theorem operandCodeTakesNextWordExactlyAsListed :
    Obligations.OperandCodeTakesNextWordExactlyAsListed := fun c =>
  Bool.eq_iff_iff.mpr ((Operand.takesNextWord_ofCode_iff c).trans (nw_setWidth_iff c).symm)

end Sys2Proof
end

section
/-!
PROOFS of 40_dispatch.md: the sampling of an operand pair (R121, R122), a skipped step (R115, R117,
R118), and that skips do not chain (R129).
-/

namespace Sys2Proof

open Sys2Proof.Machine Sys2Proof.Claims

/-! ## The resolver against the table of R156 -/

namespace Machine

section
variable (op : Operand) (l : Loc) (s : State) (n : Nat)

/-- Column "location". -/
theorem resolve_loc : (resolve op s).1 = place op s := by
  cases op with
  | short n => exact congrArg Loc.imm (BitVec.ofNat_toNat 16 n).symm
  | _ => rfl

/-- The other columns: what a resolved operand leaves behind, as one update. -/
theorem resolve_state :
    (resolve op s).2 =
      { s with pc := s.pc + pcMove op, sp := spAfter op s.sp, cycles := s.cycles + cost op } := by
  cases op <;> simp [resolve, resolveIndexed, nextWord, pcMove, spAfter, cost, State.advancePc,
    State.writePc, State.writeSp, State.charge]

theorem locRead_eq_content : s.locRead l = content l s := by cases l <;> rfl

/-- No place depends on the cycle counter. -/
theorem place_cycles : place op { s with cycles := n } = place op s := by cases op <;> rfl

/-- No content is the cycle counter's. -/
theorem content_cycles : content l { s with cycles := n } = content l s := by cases l <;> rfl

end

end Machine

/-- Settles O54: `resolve` is one row of the table, used for `a` at `s` and for `b` at the state `a`
left; that state differs from the statement's only in `cycles`, which no place or content sees. -/
theorem operandsOfEveryPairAreSampledInOrder :
    Obligations.OperandsOfEveryPairAreSampledInOrder := by
  intro a b s between after p
  have hst : p.st = { after with cycles := s.cycles + cost a + cost b } := by
    simp only [p, sample, resolve_state, after]
  have hla : p.la = place a s := resolve_loc a s
  have hlb : (resolve b (resolve a s).2).1 = place b between := by
    rw [resolve_loc, resolve_state]
    exact place_cycles b between _
  have hread (l : Loc) : p.st.locRead l = content l after := by
    rw [locRead_eq_content, hst, content_cycles]
  refine ⟨hla, ?_, ?_, hst⟩
  · rw [← hla]
    exact hread _
  · rw [← hlb]
    exact hread _

/-! ## How far a skipped instruction's operands move `pc` -/

theorem Claims.pcMove_eq (op : Operand) :
    pcMove op = if op.takesNextWord then 0x0001#16 else 0x0000#16 := by cases op <;> rfl

/-- A skipped instruction is stepped over as far as its operands, executed, would have moved `pc`. -/
theorem Instr.ofNat_nextWords (i : Instr) :
    BitVec.ofNat 16 i.nextWords = (i.operands.map pcMove).sum := by
  unfold Instr.nextWords
  induction i.operands with
  | nil => rfl
  | cons op ops ih =>
    rw [List.countP_cons, BitVec.ofNat_add, ih, List.map_cons, List.sum_cons, pcMove_eq,
      BitVec.add_comm]
    split_ifs <;> rfl

namespace Machine

variable {s : State} (hfault : s.fault = .none)
include hfault

theorem step_of_skipping (hskip : s.skipping = true) :
    step s = .next
      { s with
        pc := s.pc + 1 + ((decodeWord (s.mem.readWord s.pc)).operands.map pcMove).sum
        skipping := false } := by
  obtain ⟨hf, -⟩ | ⟨-, -, h⟩ | ⟨-, hk, -⟩ := step_paths s
  · exact absurd hfault hf
  · rw [h, skipInstr_eq, Instr.ofNat_nextWords]
    rfl
  · simp [hskip] at hk

theorem step_of_not_skipping (hskip : s.skipping = false) :
    step s = exec (decodeWord (s.mem.readWord s.pc)) { s with pc := s.pc + 1 } := by
  obtain ⟨hf, -⟩ | ⟨-, hk, -⟩ | ⟨-, -, h⟩ := step_paths s
  · exact absurd hfault hf
  · simp [hskip] at hk
  · exact h

end Machine

/-! ## The length by the raw word's fields (R80, R86) -/

theorem Claims.nwCount_eq_pcMove (c : BitVec 6) :
    nwCount (c.setWidth 16) = pcMove (Operand.ofCode c) := by
  rw [nwCount, pcMove_eq, operandCodeTakesNextWordExactlyAsListed c]

theorem operands_decodeExtended (e : BitVec 6) (a : Operand) :
    (decodeExtended e a).operands = [a] := by
  fun_cases decodeExtended e a <;> rfl

section
variable (w : Word)

theorem Claims.opField_eq : opField w = (fieldOp w).setWidth 16 := by
  apply BitVec.eq_of_toNat_eq
  have hmask : w.toNat &&& 0xF = w.toNat % 0x10 := Nat.and_two_pow_sub_one_eq_mod _ 4
  simp only [opField, fieldOp, BitVec.toNat_and, BitVec.toNat_ofNat, BitVec.toNat_setWidth,
    BitVec.extractLsb'_toNat, Nat.shiftRight_zero, hmask, Nat.reducePow, Nat.reduceMod]
  omega

theorem Claims.aField_eq : aField w = (fieldA w).setWidth 16 := by
  apply BitVec.eq_of_toNat_eq
  have hmask : (w.toNat >>> 4) &&& 0x3F = (w.toNat >>> 4) % 0x40 :=
    Nat.and_two_pow_sub_one_eq_mod _ 6
  simp only [aField, fieldA, BitVec.toNat_and, BitVec.toNat_ushiftRight, BitVec.toNat_ofNat,
    BitVec.toNat_setWidth, BitVec.extractLsb'_toNat, hmask, Nat.reducePow, Nat.reduceMod]
  omega

theorem Claims.bField_eq : bField w = (fieldB w).setWidth 16 := by
  apply BitVec.eq_of_toNat_eq
  simp only [bField, fieldB, BitVec.toNat_ushiftRight, BitVec.toNat_setWidth,
    BitVec.extractLsb'_toNat, Nat.shiftRight_eq_div_pow]
  omega

/-- `f_a` is an operand in the basic format only (R82). -/
theorem operands_decodeWord :
    (decodeWord w).operands =
      if fieldOp w = 0#4 then [Operand.ofCode (fieldB w)]
      else [Operand.ofCode (fieldA w), Operand.ofCode (fieldB w)] := by
  fun_cases decodeWord w
  case case1 b hop =>
    rw [operands_decodeExtended, if_pos (BitVec.eq_of_toNat_eq hop)]
  all_goals
    have hbasic : fieldOp w ≠ 0#4 := by bv_omega
    rw [if_neg hbasic]
    rfl

/-- The length by the raw fields is the instruction word and what the decoded operands consume. -/
theorem Claims.rawLength_eq : rawLength w = 1 + ((decodeWord w).operands.map pcMove).sum := by
  have hop : opField w = 0x0000#16 ↔ fieldOp w = 0#4 := by
    rw [opField_eq]
    bv_omega
  simp only [rawLength, hop, aField_eq, bField_eq, nwCount_eq_pcMove, operands_decodeWord]
  split_ifs <;> simp [BitVec.add_assoc]

end

/-! ## The skip -/

/-- Settles O7: the skip path goes by the decoded operands, the statement by the raw fields; the two
lengths are one (`rawLength_eq`). -/
theorem skippedStepOnlyMovesPcOverTheInstruction :
    Obligations.SkippedStepOnlyMovesPcOverTheInstruction := by
  intro s hfault hskip
  rw [step_of_skipping hfault hskip, rawLength_eq, BitVec.add_assoc]

/-- Settles O8: the skip path never asks what the instruction is, only for its two operands, and it
clears the flag that would make the next step skip. -/
theorem skipsDoNotChain : Obligations.SkipsDoNotChain := by
  intro s i a b hfault hskip hdec hcond
  have hops : i.operands = [a, b] := by
    rcases hcond with rfl | rfl | rfl | rfl <;> rfl
  refine ⟨_, step_of_skipping hfault hskip, ?_, step_of_not_skipping hfault rfl⟩
  simp [hdec, hops, BitVec.add_assoc]

end Sys2Proof
end

section
/-!
PROOFS of 43_conditional.md: the four conditionals test their sampled operands and write nothing
(R200 to R204).
-/

namespace Sys2Proof

open Sys2Proof.Machine Sys2Proof.Claims

/-! ## The conditions, as propositions about the sampled values -/

namespace Machine

section
variable (va vb : Word)

theorem ifeCondition_iff : ifeCondition va vb = true ↔ va = vb := decide_eq_true_iff

theorem ifnCondition_iff : ifnCondition va vb = true ↔ va ≠ vb := decide_eq_true_iff

/-- The comparison is unsigned (D6). -/
theorem ifgCondition_iff : ifgCondition va vb = true ↔ vb < va := decide_eq_true_iff

/-- That the bitwise AND is not zero says that some bit is set in both values. -/
theorem ifbCondition_iff :
    ifbCondition va vb = true ↔ ∃ k, va.getLsbD k = true ∧ vb.getLsbD k = true := by
  have hpos : va &&& vb ≠ 0x0000#16 ↔ 2 ^ 0 ≤ (va &&& vb).toNat := by bv_omega
  rw [ifbCondition, decide_eq_true_iff, hpos, BitVec.le_toNat_iff_getLsbD_eq_true (by decide)]
  simp only [Nat.zero_add, BitVec.getLsbD_and, Bool.and_eq_true]

end

/-! ## The common end of a conditional (R200) -/

/-- Sampling moves `pc`, `sp` and `cycles` as the two operands say; the end of the conditional then
touches `skipping` and `cycles` only, by the condition. -/
theorem tested_concludeConditional (a b : Operand) (s : State) {c : Bool} {condition : Prop}
    (hc : c = true ↔ condition) :
    Tested a b s condition (concludeConditional (sample a b s).st c) := by
  obtain ⟨-, -, -, hst⟩ := operandsOfEveryPairAreSampledInOrder a b s
  rw [hst, concludeConditional_eq]
  constructor
  case whenTrue =>
    intro h
    simp [hc.mpr h, Nat.add_assoc]
  case whenFalse =>
    intro h
    simp [mt hc.mp h, Nat.add_assoc]
  all_goals
    intros
    rfl

end Machine

/-- Settles O32: the four meanings differ in the condition alone, and each condition is the
statement's. -/
theorem conditionalsTestAndWriteNothing : Obligations.ConditionalsTestAndWriteNothing := by
  intro a b s p
  exact ⟨⟨_, rfl, tested_concludeConditional a b s (ifeCondition_iff p.va p.vb)⟩,
    ⟨_, rfl, tested_concludeConditional a b s (ifnCondition_iff p.va p.vb)⟩,
    ⟨_, rfl, tested_concludeConditional a b s (ifgCondition_iff p.va p.vb)⟩,
    ⟨_, rfl, tested_concludeConditional a b s (ifbCondition_iff p.va p.vb)⟩⟩

end Sys2Proof
end

section
/-!
PROOFS of 70_reset_and_hazards.md: the cost of a step (R281), and the load of a memory image (R264,
R266).
-/

namespace Sys2Proof

open Sys2Proof.Machine Sys2Proof.Claims

/-! ## What an executed instruction costs (R281) -/

namespace Machine

theorem operandCost_eq_cost : operandCost = cost := by
  funext op
  cases op <;> rfl

/-- The cycle by which a false condition is dearer is charged exactly when `skipping` is set. -/
theorem concludeConditional_cycles {st : State} (hskip : st.skipping = false) (c : Bool) :
    (concludeConditional st c).cycles =
      st.cycles + 2 + if (concludeConditional st c).skipping then 1 else 0 := by
  cases c <;> simp [concludeConditional_eq, hskip]

/-- Only a conditional can set `skipping`; all other meanings charge their operands' costs and the
opcode's. -/
theorem exec_cycles {i : Instr} {s t : State} (hskip : s.skipping = false)
    (h : exec i s = .next t) :
    t.cycles = s.cycles +
      (opcodeCost i + (i.operands.map cost).sum + if t.skipping then 1 else 0) := by
  rw [← operandCost_eq_cost]
  cases i with
  | set | add | sub | mul | div | mod | shl | shr | and | bor | xor | jsr =>
    cases h
    simp [hskip, opcodeCost, Instr.operands, Nat.add_comm, Nat.add_left_comm]
  | ife | ifn | ifg | ifb =>
    cases h
    rw [concludeConditional_cycles (by simp [hskip])]
    simp [opcodeCost, Instr.operands, Nat.add_assoc, Nat.add_left_comm]
  | undefExt00 | undefExt0203 | undefExt0407 | undefExt080F | undefExt101F | undefExt203F =>
    cases h
    simp [hskip, opcodeCost, Instr.operands, undefinedExtended_eq]

end Machine

/-- Settles O38: a skipped step charges nothing and clears `skipping`; an executed one charges what
its instruction does, the fetch being free (`exec_cycles`). -/
theorem stepCostsWhatTheTableSays : Obligations.StepCostsWhatTheTableSays := by
  intro s t hfault hstep i
  cases hskip : s.skipping with
  | true =>
    rw [step_of_skipping hfault hskip] at hstep
    cases hstep
    rfl
  | false =>
    rw [step_of_not_skipping hfault hskip] at hstep
    exact exec_cycles (s := { s with pc := s.pc + 1 }) hskip hstep

/-! ## The load of an image (R264, R266) -/

theorem toNat_wordOfBytes (hi lo : Byte) :
    (wordOfBytes hi lo).toNat = hi.toNat * 256 + lo.toNat := by
  rw [wordOfBytes, BitVec.toNat_append, ← Nat.shiftLeft_add_eq_or_of_lt lo.isLt, Nat.shiftLeft_eq]

namespace Machine

/-- What lies past the image's length is never read: each byte of a cell is below it. -/
theorem readByte_ofBytesFrom_take (image : List Byte) {n : Nat} (hn : n < Config.imageBytes) :
    (Memory.ofBytesFrom 0 (image.take Config.imageBytes)).readByte n = image.getD n 0 := by
  have hbyte := Memory.readByte_ofBytesFrom 0 (image.take Config.imageBytes) n
  rw [Nat.zero_add] at hbyte
  rw [hbyte, List.getD_eq_getElem?_getD, List.getElem?_take_of_lt hn, ← List.getD_eq_getElem?_getD]
  rfl

theorem toNat_readWord_ofBytesFrom_take (image : List Byte) (k : Word) :
    ((Memory.ofBytesFrom 0 (image.take Config.imageBytes)).readWord k).toNat =
      (image.getD (2 * k.toNat) 0).toNat * 256 + (image.getD (2 * k.toNat + 1) 0).toNat := by
  have hk := k.isLt
  have hlow : 2 * k.toNat + 1 < Config.imageBytes := by
    rw [Config.imageBytes]
    omega
  rw [Memory.readWord, toNat_wordOfBytes, readByte_ofBytesFrom_take image hlow,
    readByte_ofBytesFrom_take image (by omega)]

section
variable {image : List Byte} (s : State)

theorem serve_loadImage_of_short (h : image.length < Config.imageBytes) :
    serve (.loadImage image) s = (.loadError, s) := by
  simp only [serve, loadImage, if_pos h]

theorem serve_loadImage_of_long (h : Config.imageBytes ≤ image.length) :
    serve (.loadImage image) s =
      (.done, { s with mem := Memory.ofBytesFrom 0 (image.take Config.imageBytes) }) := by
  simp only [serve, loadImage, if_neg h.not_gt]

end

end Machine

/-- Settles O48: a short stream loads to no state, so the request keeps the one it had. -/
theorem loadErrorChangesNothing : Obligations.LoadErrorChangesNothing :=
  fun _ s h => serve_loadImage_of_short s h

/-- Settles O47: a whole image is kept byte by byte (`readByte_ofBytesFrom`), and a cell is two of its
bytes. -/
theorem loadedImageIsTheMemory : Obligations.LoadedImageIsTheMemory := fun image s =>
  ⟨fun hlong => ⟨_, serve_loadImage_of_long s hlong, toNat_readWord_ofBytesFrom_take image⟩,
    fun hshort => congrArg Prod.fst (loadErrorChangesNothing image s hshort)⟩

end Sys2Proof
end

section
/-!
PROOFS of 30_encoding.md: decode and encode agree (R80 to R90), the opcode table's rows (R103), and
the byte stream of an instruction with its next words (R86, R87; log 13).
-/

namespace Sys2Proof

open Sys2Proof.Machine Sys2Proof.Claims

/-! ## Decode and encode (R80 to R90) -/

/-- The extended opcode is kept whole: an undefined row's code is the row's fixed bits followed by
the free bits. -/
theorem encodeWord_decodeExtended (e : BitVec 6) (a : Operand) :
    (decodeExtended e a).encodeWord = packWord a.code e 0#4 := by
  have row0203 : ∀ e : BitVec 6, 0x02#6 ≤ e → e ≤ 0x03#6 → 0b00001#5 ++ e.extractLsb' 0 1 = e := by
    decide
  have row0407 : ∀ e : BitVec 6, 0x04#6 ≤ e → e ≤ 0x07#6 → 0b0001#4 ++ e.extractLsb' 0 2 = e := by
    decide
  have row080F : ∀ e : BitVec 6, 0x08#6 ≤ e → e ≤ 0x0F#6 → 0b001#3 ++ e.extractLsb' 0 3 = e := by
    decide
  have row101F : ∀ e : BitVec 6, 0x10#6 ≤ e → e ≤ 0x1F#6 → 0b01#2 ++ e.extractLsb' 0 4 = e := by
    decide
  have row203F : ∀ e : BitVec 6, 0x20#6 ≤ e → 0b1#1 ++ e.extractLsb' 0 5 = e := by decide
  fun_cases decodeExtended e a
  case case1 h => rw [h]; rfl
  case case2 h => rw [h]; rfl
  case case3 h => rw [Instr.encodeWord, row0203 e (by bv_omega) h]
  case case4 h => rw [Instr.encodeWord, row0407 e (by bv_omega) h]
  case case5 h => rw [Instr.encodeWord, row080F e (by bv_omega) h]
  case case6 h => rw [Instr.encodeWord, row101F e (by bv_omega) h]
  case case7 h => rw [Instr.encodeWord, row203F e (by bv_omega)]

theorem decodeWord_packWord_extended (e c : BitVec 6) :
    decodeWord (packWord c e 0#4) = decodeExtended e (Operand.ofCode c) := by
  simp [decodeWord]


/-- Settles O11: the fields of a packed word are those packed and an operand's code gives the
operand back; what is left of an extended word is its free bits, at most 32 codes a row. -/
theorem decodeOfEncodeIsTheInstruction : Obligations.DecodeOfEncodeIsTheInstruction := by
  intro i h
  cases i with
  | set a b | add a b | sub a b | mul a b | div a b | mod a b | shl a b | shr a b | and a b
  | bor a b | xor a b | ife a b | ifn a b | ifg a b | ifb a b =>
    obtain ⟨ha, hb⟩ : a.wf = true ∧ b.wf = true := by simpa [Instr.wf, Instr.operands] using h
    simp [Instr.encodeWord, decodeWord, Operand.ofCode_code, ha, hb]
  | jsr a | undefExt00 a =>
    have ha : a.wf = true := by simpa [Instr.wf, Instr.operands] using h
    rw [Instr.encodeWord, decodeWord_packWord_extended, Operand.ofCode_code a ha]
    rfl
  | undefExt0203 e a | undefExt0407 e a | undefExt080F e a | undefExt101F e a
  | undefExt203F e a =>
    have ha : a.wf = true := by simpa [Instr.wf, Instr.operands] using h
    rw [Instr.encodeWord, decodeWord_packWord_extended, Operand.ofCode_code a ha]
    fin_cases e <;> rfl

/-- A word is its basic operation and the codes of the two operand forms that its fields have. -/
theorem packWord_code_ofCode {w : Word} {op : BitVec 4} (h : fieldOp w = op) :
    packWord (Operand.ofCode (fieldB w)).code (Operand.ofCode (fieldA w)).code op = w := by
  rw [Operand.code_ofCode, Operand.code_ofCode, ← h, packWord_fields]

theorem encodeWord_decodeWord (w : Word) : (decodeWord w).encodeWord = w := by
  fun_cases decodeWord w
  case case1 b hop =>
    have hop : fieldOp w = 0#4 := BitVec.eq_of_toNat_eq hop
    rw [encodeWord_decodeExtended, Operand.code_ofCode, ← hop, packWord_fields]
  case case16 =>
    simp only [imp_false] at *
    exact packWord_code_ofCode (by bv_omega)
  all_goals exact packWord_code_ofCode (BitVec.eq_of_toNat_eq ‹_›)

/-- Settles O12: no bit is lost, since a word is its fields and each code is its form's code; a
decoded operand is never the one form that has no code. -/
theorem encodeOfDecodeIsTheWord : Obligations.EncodeOfDecodeIsTheWord := by
  refine fun w => ⟨encodeWord_decodeWord w, ?_⟩
  rw [Instr.wf, operands_decodeWord]
  split_ifs <;> simp

/-- Settles O10: the words' fields, computed. -/
theorem specWordsDecodeToTheirInstructions : Obligations.SpecWordsDecodeToTheirInstructions := by
  unfold Obligations.SpecWordsDecodeToTheirInstructions
  decide

/-! ## The rows of the opcode table (R103) -/

/-- The family MatchesTable as one statement. -/
theorem encodeWord_and_rowMask : ∀ i : Instr, i.encodeWord &&& i.rowMask = i.rowMatch
  | .set a b => Laws.MatchesTable.set a b
  | .add a b => Laws.MatchesTable.add a b
  | .sub a b => Laws.MatchesTable.sub a b
  | .mul a b => Laws.MatchesTable.mul a b
  | .div a b => Laws.MatchesTable.div a b
  | .mod a b => Laws.MatchesTable.mod a b
  | .shl a b => Laws.MatchesTable.shl a b
  | .shr a b => Laws.MatchesTable.shr a b
  | .and a b => Laws.MatchesTable.and a b
  | .bor a b => Laws.MatchesTable.bor a b
  | .xor a b => Laws.MatchesTable.xor a b
  | .ife a b => Laws.MatchesTable.ife a b
  | .ifn a b => Laws.MatchesTable.ifn a b
  | .ifg a b => Laws.MatchesTable.ifg a b
  | .ifb a b => Laws.MatchesTable.ifb a b
  | .jsr a => Laws.MatchesTable.jsr a
  | .undefExt00 a => Laws.MatchesTable.undefExt00 a
  | .undefExt0203 e a => Laws.MatchesTable.undefExt0203 e a
  | .undefExt0407 e a => Laws.MatchesTable.undefExt0407 e a
  | .undefExt080F e a => Laws.MatchesTable.undefExt080F e a
  | .undefExt101F e a => Laws.MatchesTable.undefExt101F e a
  | .undefExt203F e a => Laws.MatchesTable.undefExt203F e a

theorem row_mem_tableRows (i : Instr) : (i.rowMask, i.rowMatch) ∈ tableRows := by
  cases i <;> simp [tableRows, Instr.rowMask, Instr.rowMatch]

/-- Of two rows, each fixes some bit that the other fixes too, to another value. -/
theorem tableRows_pairwise :
    tableRows.Pairwise fun row row' => row.2 &&& row'.1 ≠ row'.2 &&& row.1 := by decide

/-- So no word matches two rows. -/
theorem tableRows_disjoint (w : Word) :
    tableRows.Pairwise fun row row' => ¬ (w &&& row.1 = row.2 ∧ w &&& row'.1 = row'.2) := by
  refine tableRows_pairwise.imp fun {row row'} hne ⟨hrow, hrow'⟩ => hne ?_
  rw [← hrow, ← hrow', BitVec.and_assoc, BitVec.and_assoc, BitVec.and_comm row.1]

/-- Where no two members of a list have a property, filtering by it leaves the one that has it. -/
theorem filter_eq_singleton {α : Type} {p : α → Bool} {l : List α} {x : α}
    (hl : l.Pairwise fun y z => ¬ (p y = true ∧ p z = true)) (hx : x ∈ l) (hpx : p x = true) :
    l.filter p = [x] := by
  induction l with
  | nil => cases hx
  | cons y l ih =>
    obtain ⟨hy, hl⟩ := List.pairwise_cons.mp hl
    rcases List.mem_cons.mp hx with rfl | hx
    · have hrest : l.filter p = [] :=
        List.filter_eq_nil_iff.mpr fun z hz hpz => hy z hz ⟨hpx, hpz⟩
      rw [List.filter_cons_of_pos hpx, hrest]
    · rw [List.filter_cons_of_neg fun hpy => hy x hx ⟨hpy, hpx⟩, ih hl hx]

/-- Settles O14: a word is its decoded instruction's word, which has the fixed bits of the
instruction's row (`encodeWord_and_rowMask`), and no word has those of two rows. -/
theorem eachWordMatchesOneTableRow : Obligations.EachWordMatchesOneTableRow := by
  intro w
  refine filter_eq_singleton ?_ (row_mem_tableRows (decodeWord w)) ?_
  · simpa only [decide_eq_true_eq] using tableRows_disjoint w
  · have hmatch := encodeWord_and_rowMask (decodeWord w)
    rw [encodeWord_decodeWord] at hmatch
    exact decide_eq_true hmatch

/-! ## An instruction's length (R86) -/

theorem Instr.operands_length_le (i : Instr) : i.operands.length ≤ 2 := by
  cases i <;> simp [Instr.operands]

/-- Settles O16: the raw length is that of the decoded operands (`rawLength_eq`), at most two. -/
theorem instructionLengthFromTheWord : Obligations.InstructionLengthFromTheWord := by
  intro w
  have hnext : (decodeWord w).nextWords ≤ 2 :=
    List.countP_le_length.trans (Instr.operands_length_le _)
  refine ⟨?_, ?_, ?_⟩
  · rw [Instr.length, BitVec.ofNat_add, Instr.ofNat_nextWords, rawLength_eq]
    rfl
  all_goals
    rw [Instr.length]
    omega

/-! ## The byte stream (R87, 20_memory.md R53) -/

theorem takeWords_wordBytes (n : Nat) (w : Word) (bs : List Byte) :
    takeWords (n + 1) (wordBytes w ++ bs) = (takeWords n bs).map fun r => (w :: r.1, r.2) := by
  rw [wordBytes, List.cons_append, List.cons_append, takeWords_succ, Memory.wordOfBytes_of_halves,
    List.nil_append]

/-- Words written as bytes are taken off again, and what follows them is left. -/
theorem takeWords_flatMap_wordBytes (ws : List Word) (rest : List Byte) :
    takeWords ws.length (ws.flatMap wordBytes ++ rest) = some (ws, rest) := by
  induction ws with
  | nil => exact takeWords_zero rest
  | cons w ws ih =>
    rw [List.length_cons, List.flatMap_cons, List.append_assoc, takeWords_wordBytes, ih]
    rfl

theorem takeWords_eq_none {n : Nat} {bs : List Byte} (h : bs.length < 2 * n) :
    takeWords n bs = none := by
  fun_induction takeWords n bs with
  | case1 => omega
  | case2 n hi lo bs ih =>
    simp only [List.length_cons] at h
    rw [ih (by omega)]
    rfl
  | case3 => rfl

theorem length_flatMap_wordBytes (ws : List Word) :
    (ws.flatMap wordBytes).length = 2 * ws.length := by
  induction ws with
  | nil => rfl
  | cons w ws ih =>
    simp only [List.flatMap_cons, List.length_append, ih, wordBytes, List.length_cons,
      List.length_nil]
    omega

section
variable {i : Instr} (hwf : i.wf = true) {bs rest : List Byte}
include hwf

/-- The instruction word's two bytes are decoded, whatever stands behind them. -/
theorem decodeBytes_wordBytes_of_some {ws : List Word}
    (h : takeWords i.nextWords bs = some (ws, rest)) :
    decodeBytes (wordBytes i.encodeWord ++ bs) = .ok (i, ws, rest) := by
  simp [wordBytes, decodeBytes, Memory.wordOfBytes_of_halves,
    decodeOfEncodeIsTheInstruction i hwf, h]

theorem decodeBytes_wordBytes_of_short (h : bs.length < 2 * i.nextWords) :
    decodeBytes (wordBytes i.encodeWord ++ bs) = .error .truncatedNextWord := by
  simp [wordBytes, decodeBytes, Memory.wordOfBytes_of_halves,
    decodeOfEncodeIsTheInstruction i hwf, takeWords_eq_none h]

end

theorem encodeBytes_eq (i : Instr) (nws : List Word) :
    encodeBytes i nws = wordBytes i.encodeWord ++ nws.flatMap wordBytes := rfl

/-- Settles O13: the instruction word is decoded back (O11), and then its next words are taken, or
are too few bytes to be taken. -/
theorem byteStreamRoundTrip : Obligations.ByteStreamRoundTrip := by
  constructor
  · intro i nws rest hwf hlen
    rw [encodeBytes_eq, List.append_assoc]
    exact decodeBytes_wordBytes_of_some hwf (hlen ▸ takeWords_flatMap_wordBytes nws rest)
  · intro i nws hwf hlen
    rw [encodeBytes_eq]
    refine decodeBytes_wordBytes_of_short hwf ?_
    rw [length_flatMap_wordBytes]
    omega

theorem decodeBytes_of_length_lt_two {bs : List Byte} (h : bs.length < 2) :
    decodeBytes bs = .error .truncatedInstructionWord := by
  fun_cases decodeBytes bs
  case case3 => rfl
  all_goals simp at h

/-- Settles O55: a cut before the second byte leaves no instruction word; a later one leaves it
whole and too few bytes of next words behind it. -/
theorem cutByteStreamIsRefusedByName : Obligations.CutByteStreamIsRefusedByName := by
  intro i nws n hwf hlen hn
  split_ifs with hword
  · exact decodeBytes_of_length_lt_two ((List.length_take_le _ _).trans_lt hword)
  · have hcut : (encodeBytes i nws).take n =
        wordBytes i.encodeWord ++ (nws.flatMap wordBytes).take (n - 2) := by
      rw [encodeBytes_eq, List.take_append, List.take_of_length_le (not_lt.mp hword)]
      rfl
    rw [hcut]
    refine decodeBytes_wordBytes_of_short hwf ?_
    rw [Instr.length] at hn
    exact (List.length_take_le _ _).trans_lt (by omega)

end Sys2Proof
end

section
/-!
PROOFS of 42_basic_alu.md: the result, `o`, the cost and the frame of the eleven writing basic
instructions (R170 to R184), for every operand pair.
-/

namespace Sys2Proof

open Sys2Proof.Machine Sys2Proof.Claims

namespace Machine

/-! ## The two orders of writing, frame included (R123) -/

section
variable (a b : Operand) (s : State)

@[simp] theorem sample_pc : (sample a b s).st.pc = s.pc + pcMove a + pcMove b := by
  simp [sample, resolve_state]

@[simp] theorem sample_sp : (sample a b s).st.sp = spAfter b (spAfter a s.sp) := by
  simp [sample, resolve_state]

theorem sample_la : (sample a b s).la = place a s := resolve_loc a s

end

section
variable {a b : Operand} {s : State} {n : Nat} {r r' v : Word} {ov : Option Word}

/-- The result first, then `o`: where `a` is `o` itself, a written overflow stays. -/
theorem wrote_writeResultThenOverflow (hr : r = r') :
    Wrote a b s (sample a b s) n r' (ov.getD s.o) (ov.getD r')
      ((writeResultThenOverflow (sample a b s) r ov).charge n) := by
  subst hr
  constructor
  case o => rw [State.charge_o, writeResultThenOverflow_o, sample_o, apply_ite ov.getD]
  all_goals simp [writeResultThenOverflow_get, writeResultThenOverflow_readWord,
    writeResultThenOverflow_pc, writeResultThenOverflow_sp, operandCost_eq_cost]

theorem wrote_of_overflow (hr : r = r') (hov : ov = some v) :
    Wrote a b s (sample a b s) n r' v v
      ((writeResultThenOverflow (sample a b s) r ov).charge n) := by
  subst hov
  exact wrote_writeResultThenOverflow (ov := some v) hr

theorem wrote_of_no_overflow (hr : r = r') (hov : ov = none) :
    Wrote a b s (sample a b s) n r' s.o r'
      ((writeResultThenOverflow (sample a b s) r ov).charge n) := by
  subst hov
  exact wrote_writeResultThenOverflow (ov := none) hr

/-- `o` first, then the result: where `a` is `o` itself, the result stays. -/
theorem wrote_writeOverflowThenResult (hr : r = r') (hov : ov = some v) :
    Wrote a b s (sample a b s) n r' v r'
      ((writeOverflowThenResult (sample a b s) r ov).charge n) := by
  subst hr hov
  constructor
  case o => rw [State.charge_o, writeOverflowThenResult_o, Option.getD_some]
  all_goals simp [writeOverflowThenResult_get, writeOverflowThenResult_readWord,
    writeOverflowThenResult_pc, writeOverflowThenResult_sp, operandCost_eq_cost]

end

end Machine

/-! ## Copying and the bitwise instructions (R171, R179 to R181) -/

/-- Settles O21: SET writes the sampled `b` and no overflow. -/
theorem setCopiesItsSource : Obligations.SetCopiesItsSource :=
  fun _ _ _ => ⟨_, rfl, wrote_of_no_overflow rfl rfl⟩

/-- Settles O29: the word operations are bitwise, and none writes an overflow. -/
theorem andBorXorWorkBitByBit : Obligations.AndBorXorWorkBitByBit := fun _ _ _ =>
  ⟨⟨_, _, rfl, wrote_of_no_overflow rfl rfl, fun _ => BitVec.getLsbD_and⟩,
    ⟨_, _, rfl, wrote_of_no_overflow rfl rfl, fun _ => BitVec.getLsbD_or⟩,
    ⟨_, _, rfl, wrote_of_no_overflow rfl rfl, fun _ => BitVec.getLsbD_xor⟩⟩

/-! ## Arithmetic on exact integers (R172 to R176) -/

theorem toNat_trunc16 (n : Nat) : (trunc16 n).toNat = n % 65536 := BitVec.toNat_ofNat n 16

section
variable (va vb : Word)

theorem trunc16_add : trunc16 (va.toNat + vb.toNat) = va + vb :=
  BitVec.eq_of_toNat_eq (BitVec.toNat_add va vb).symm

theorem trunc16_mul : trunc16 (va.toNat * vb.toNat) = va * vb :=
  BitVec.eq_of_toNat_eq (BitVec.toNat_mul va vb).symm

theorem trunc16Int_sub : trunc16Int ((va.toNat : Int) - (vb.toNat : Int)) = va - vb := by
  apply BitVec.eq_of_toInt_eq
  rw [trunc16Int, BitVec.toInt_ofInt, BitVec.toInt_sub, BitVec.toInt_eq_toNat_bmod,
    BitVec.toInt_eq_toNat_bmod, Int.bmod_sub_bmod, Int.sub_bmod_bmod]

/-- The exact difference is below 0 when the unsigned comparison says so. -/
theorem subOverflow_eq : subOverflow va vb = if va < vb then some 0xFFFF#16 else none :=
  if_congr (by bv_omega) rfl rfl

/-- The low and the high half of the exact product. -/
theorem mul_halves :
    (trunc16 ((va.toNat * vb.toNat) >>> 16)).toNat * 65536 + (va * vb).toNat =
      va.toNat * vb.toNat := by
  have hhigh : va.toNat * vb.toNat < 65536 * 65536 :=
    Nat.mul_lt_mul'' va.isLt vb.isLt
  rw [toNat_trunc16, BitVec.toNat_mul, Nat.shiftRight_eq_div_pow]
  omega

variable {va vb}

theorem toNat_trunc16_div : (trunc16 (va.toNat / vb.toNat)).toNat = va.toNat / vb.toNat := by
  rw [toNat_trunc16, Nat.mod_eq_of_lt ((Nat.div_le_self _ _).trans_lt va.isLt)]

theorem toNat_trunc16_mod : (trunc16 (va.toNat % vb.toNat)).toNat = va.toNat % vb.toNat := by
  rw [toNat_trunc16, Nat.mod_eq_of_lt ((Nat.mod_le _ _).trans_lt va.isLt)]

/-- Dividing `va * 65536` and then dropping the 16 fractional bits is dividing `va`. -/
theorem div_halves :
    va.toNat / vb.toNat * 65536 + (trunc16 ((va.toNat <<< 16) / vb.toNat)).toNat =
      va.toNat * 65536 / vb.toNat := by
  have hquotient : va.toNat * 65536 / vb.toNat / 65536 = va.toNat / vb.toNat := by
    rw [Nat.div_div_eq_div_mul, Nat.mul_div_mul_right _ _ (by norm_num)]
  rw [toNat_trunc16, Nat.shiftLeft_eq, ← hquotient]
  exact Nat.div_add_mod' _ _

end

/-- Settles O22: a carry is an exact sum past 16 bits. -/
theorem addWritesTheSumAndFlagsOnlyACarry : Obligations.AddWritesTheSumAndFlagsOnlyACarry := by
  intro a b s
  refine ⟨_, rfl, ?_⟩
  intro p sum
  split_ifs with hcarry
  · exact wrote_of_overflow (trunc16_add _ _) (if_pos hcarry)
  · exact wrote_of_no_overflow (trunc16_add _ _) (if_neg hcarry)

/-- Settles O23: a borrow is an exact difference below 0. -/
theorem subWritesTheDifferenceAndFlagsOnlyABorrow :
    Obligations.SubWritesTheDifferenceAndFlagsOnlyABorrow := by
  intro a b s
  refine ⟨_, rfl, ?_⟩
  intro p difference
  split_ifs with hborrow
  · exact wrote_of_overflow (trunc16Int_sub _ _) ((subOverflow_eq _ _).trans (if_pos hborrow))
  · exact wrote_of_no_overflow (trunc16Int_sub _ _) ((subOverflow_eq _ _).trans (if_neg hborrow))

/-- Settles O24: two words hold every product of two words. -/
theorem mulSplitsTheExactProduct : Obligations.MulSplitsTheExactProduct := fun _ _ _ =>
  ⟨_, rfl, _, wrote_of_overflow (trunc16_mul _ _) rfl, mul_halves _ _⟩

/-- Settles O25: for a divisor other than 0 the two words are the halves of the exact quotient. -/
theorem divWritesQuotientAndFraction : Obligations.DivWritesQuotientAndFraction := by
  intro a b s
  refine ⟨_, rfl, fun hzero => ?_, fun hdivisor => ?_⟩
  · have hzero := congrArg BitVec.toNat hzero
    exact wrote_of_overflow (if_pos hzero) (if_pos hzero)
  · have hdivisor := BitVec.toNat_ne_iff_ne.mpr hdivisor
    refine ⟨_, _, wrote_of_overflow (if_neg hdivisor) (if_neg hdivisor), toNat_trunc16_div, ?_⟩
    rw [toNat_trunc16_div]
    exact div_halves

/-- Settles O26: a remainder is no larger than `a`; only the divisor 0 writes `o`. -/
theorem modWritesTheRemainder : Obligations.ModWritesTheRemainder := by
  intro a b s
  refine ⟨_, rfl, fun hzero => ?_, fun hdivisor => ?_⟩
  · have hzero := congrArg BitVec.toNat hzero
    exact wrote_of_overflow (if_pos hzero) (if_pos hzero)
  · have hdivisor := BitVec.toNat_ne_iff_ne.mpr hdivisor
    exact ⟨_, wrote_of_no_overflow (if_neg hdivisor) (if_neg hdivisor), toNat_trunc16_mod⟩

/-! ## Shifts, by the amount (R177, R178) -/

/-- A shift to the left and one to the right leave the longer one's excess. -/
theorem shiftLeft_shiftRight_of_le (x : Nat) {m n : Nat} (h : m ≤ n) :
    (x <<< m) >>> n = x >>> (n - m) := by
  obtain ⟨k, rfl⟩ := Nat.exists_eq_add_of_le h
  rw [Nat.shiftRight_add, Nat.shiftLeft_shiftRight, Nat.add_sub_cancel_left]

theorem shiftLeft_shiftRight_of_ge (x : Nat) {m n : Nat} (h : n ≤ m) :
    (x <<< m) >>> n = x <<< (m - n) := by
  obtain ⟨k, rfl⟩ := Nat.exists_eq_add_of_le' h
  rw [Nat.shiftLeft_add, Nat.shiftLeft_shiftRight, Nat.add_sub_cancel]

section
variable (va vb : Word)

theorem trunc16_shiftLeft (n : Nat) : trunc16 (va.toNat <<< n) = va <<< n :=
  BitVec.eq_of_toNat_eq BitVec.toNat_shiftLeft.symm

theorem trunc16_shiftRight (n : Nat) : trunc16 (va.toNat >>> n) = va >>> n := by
  rw [← BitVec.toNat_ushiftRight, trunc16, BitVec.ofNat_toNat, BitVec.setWidth_eq]

theorem trunc16_shiftLeft_eq_shlResult : trunc16 (va.toNat <<< vb.toNat) = shlResult va vb := by
  rw [trunc16_shiftLeft, shlResult]
  split_ifs with h
  · rfl
  · exact BitVec.shiftLeft_eq_zero (by omega)

theorem trunc16_shiftRight_eq_shrResult : trunc16 (va.toNat >>> vb.toNat) = shrResult va vb := by
  rw [trunc16_shiftRight, shrResult]
  split_ifs with h
  · rfl
  · exact BitVec.ushiftRight_eq_zero (by omega)

/-- Up to 16 places the bits past bit 15 are the top ones of `va`; further on they are its low ones,
until all are gone. -/
theorem shlOverflow_eq_shlOut : shlOverflow va vb = some (shlOut va vb) := by
  rw [shlOverflow, shlOut]
  congr 1
  rcases le_or_gt vb.toNat 16 with hle | hlt
  · rw [shiftLeft_shiftRight_of_le _ hle, trunc16_shiftRight]
    split_ifs with h0 h15 h16 h31
    · rw [h0]; exact BitVec.ushiftRight_eq_zero le_rfl
    · rfl
    · rw [h16]; exact BitVec.ushiftRight_zero va
    all_goals omega
  · rw [shiftLeft_shiftRight_of_ge _ hlt.le, trunc16_shiftLeft]
    split_ifs with h0 h15 h16 h31
    case pos | pos | pos => omega
    · rfl
    · exact BitVec.shiftLeft_eq_zero (by omega)

/-- The mirror image, of the bits past bit 0. -/
theorem shrOverflow_eq_shrOut : shrOverflow va vb = some (shrOut va vb) := by
  rw [shrOverflow, shrOut]
  congr 1
  rcases le_or_gt vb.toNat 16 with hle | hlt
  · rw [shiftLeft_shiftRight_of_ge _ hle, trunc16_shiftLeft]
    split_ifs with h0 h15 h16 h31
    · rw [h0]; exact BitVec.shiftLeft_eq_zero le_rfl
    · rfl
    · rw [h16]; exact BitVec.shiftLeft_zero va
    all_goals omega
  · rw [shiftLeft_shiftRight_of_le _ hlt.le, trunc16_shiftRight]
    split_ifs with h0 h15 h16 h31
    case pos | pos | pos => omega
    · rfl
    · exact BitVec.ushiftRight_eq_zero (by omega)

end

/-- Settles O27: the shifted exact integer, cut at bit 16, is the table's two words. -/
theorem shlShiftsOutIntoOverflow : Obligations.ShlShiftsOutIntoOverflow := fun _ _ _ =>
  ⟨_, rfl, wrote_writeOverflowThenResult (trunc16_shiftLeft_eq_shlResult _ _)
    (shlOverflow_eq_shlOut _ _)⟩

/-- Settles O28: as O27, with 16 places below the value. -/
theorem shrShiftsOutIntoOverflow : Obligations.ShrShiftsOutIntoOverflow := fun _ _ _ =>
  ⟨_, rfl, wrote_writeOverflowThenResult (trunc16_shiftRight_eq_shrResult _ _)
    (shrOverflow_eq_shrOut _ _)⟩

/-! ## The writing instructions together (R154, R183) -/

namespace Machine

theorem place_eq_ov_iff {op : Operand} {s : State} : place op s = .ov ↔ op = .o := by
  cases op <;> simp [place]

/-- Every writing instruction is one of the two orders of writing on the sampled operands. -/
theorem exec_of_writesA {i : Instr} {a b : Operand} (s : State) (h : writesA i a b) :
    ∃ r ov n,
      exec i s = .next ((writeResultThenOverflow (sample a b s) r ov).charge n) ∨
      exec i s = .next ((writeOverflowThenResult (sample a b s) r ov).charge n) := by
  iterate 6
    rcases h with rfl | h
    · exact ⟨_, _, _, .inl rfl⟩
  iterate 2
    rcases h with rfl | h
    · exact ⟨_, _, _, .inr rfl⟩
  rcases h with rfl | rfl | rfl <;> exact ⟨_, _, _, .inl rfl⟩

end Machine

/-- Settles O30: a literal is sampled to a place no write changes, so either order of writing is the
write of `o` alone. -/
theorem writesToLiteralsAreDiscarded : Obligations.WritesToLiteralsAreDiscarded := by
  intro i a b s hwrites hliteral
  obtain ⟨w, hla⟩ : ∃ w, (sample a b s).la = .imm w := by
    rw [sample_la]
    rcases hliteral with rfl | ⟨n, rfl⟩ <;> exact ⟨_, rfl⟩
  have hsp : spAfter a s.sp = s.sp := by
    rcases hliteral with rfl | ⟨n, rfl⟩ <;> rfl
  obtain ⟨r, ov, n, h | h⟩ := exec_of_writesA s hwrites
  · exact ⟨_, h, by simp [writeResultThenOverflow, State.locWrite, hla, hsp]⟩
  · exact ⟨_, h, by simp [writeOverflowThenResult, State.locWrite, hla, hsp]⟩

/-- Settles O31: the four writing instructions with no overflow of their own change `o` through
their operand `a` alone, and the instructions that write no operand not at all. -/
theorem overflowChangesOnlyWhereListed : Obligations.OverflowChangesOnlyWhereListed := by
  intro i s t h hne
  cases i with
  | set a b | and a b | bor a b | xor a b =>
    cases h
    have ha : a = .o := by
      by_contra ha
      simp [writeResultThenOverflow_o, sample_la, place_eq_ov_iff, ha] at hne
    exact ⟨a, b, .inr ⟨by simp [writesA], ha⟩⟩
  | add a b | sub a b | mul a b | div a b | mod a b | shl a b | shr a b =>
    exact ⟨a, b, .inl (by simp [writesO])⟩
  | ife | ifn | ifg | ifb =>
    cases h
    simp [concludeConditional_eq] at hne
  | jsr =>
    cases h
    simp at hne
  | undefExt00 | undefExt0203 | undefExt0407 | undefExt080F | undefExt101F | undefExt203F =>
    cases h
    simp [undefinedExtended_eq] at hne

end Sys2Proof
end

section
/-!
PROOFS of 44_extended.md: the call (R221, R224), the return (R223), and the undefined extended
opcodes (R222).
-/

namespace Sys2Proof

open Sys2Proof.Machine Sys2Proof.Claims

namespace Machine

/-- The call as one update of the state: a push of the next instruction's address and a jump. -/
theorem exec_jsr (a : Operand) (s : State) :
    exec (.jsr a) s = .next
      { s with
        pc := (resolve a s).2.locRead (resolve a s).1
        sp := spAfter a s.sp - 1
        mem := s.mem.writeWord (spAfter a s.sp - 1) (s.pc + pcMove a)
        cycles := s.cycles + cost a + 2 } := by
  simp only [exec, execJsr, resolve_state]
  rfl

/-- The fault keeps the operand's side effects and has no other effect than the latch. -/
theorem faulted_undefinedExtended (code : BitVec 6) (a : Operand) (s : State) :
    Faulted code a s (undefinedExtended code a s) := by
  rw [undefinedExtended_eq, resolve_state]
  constructor
  all_goals
    intros
    rfl

end Machine

/-- Settles O33: the call is one push and one jump (`exec_jsr`). -/
theorem jsrPushesTheReturnAddressAndJumps : Obligations.JsrPushesTheReturnAddressAndJumps :=
  fun a s => ⟨_, exec_jsr a s, rfl, rfl, fun _ => Memory.readWord_writeWord _ _ _ _, fun _ => rfl,
    rfl, rfl, rfl, rfl⟩

/-- Settles O34: `exec_jsr` at five operands; the target is read before the push. -/
theorem jsrCornerCases : Obligations.JsrCornerCases := by
  intro s jumped
  have htwo : s.sp - 1#16 - 1#16 = s.sp - 2#16 := by bv_omega
  refine ⟨⟨_, exec_jsr .sp s, ?_⟩, ⟨_, exec_jsr .pop s, ?_⟩, ⟨_, exec_jsr .peek s, ?_⟩,
    ⟨_, exec_jsr .push s, ?_⟩, ⟨_, exec_jsr .absolute s, ?_⟩⟩
  · exact ⟨rfl, rfl, by simp [spAfter, pcMove]⟩
  · exact ⟨rfl, by simp [spAfter], by simp [spAfter, pcMove]⟩
  · exact ⟨rfl, rfl, by simp [spAfter, pcMove]⟩
  · exact ⟨rfl, htwo, by simp [spAfter, pcMove, htwo]⟩
  · exact ⟨rfl, rfl, rfl⟩

/-- Settles O40: the return pops the cell that the call pushed. -/
theorem returnUndoesTheCall : Obligations.ReturnUndoesTheCall := by
  intro a s here
  exact ⟨_, _, exec_jsr a s, rfl, Memory.readWord_writeWord_same _ _ _, BitVec.sub_add_cancel _ _,
    rfl, rfl, rfl⟩

/-- Settles O35: each row's meaning is the one fault with the row's code, its fixed bits before its
free ones. -/
theorem undefinedExtendedOpcodesLatchTheFault :
    Obligations.UndefinedExtendedOpcodesLatchTheFault := by
  have row0203 : ∀ e : BitVec 1, BitVec.ofNat 6 (0x02 + e.toNat) = 0b00001#5 ++ e := by decide
  have row0407 : ∀ e : BitVec 2, BitVec.ofNat 6 (0x04 + e.toNat) = 0b0001#4 ++ e := by decide
  have row080F : ∀ e : BitVec 3, BitVec.ofNat 6 (0x08 + e.toNat) = 0b001#3 ++ e := by decide
  have row101F : ∀ e : BitVec 4, BitVec.ofNat 6 (0x10 + e.toNat) = 0b01#2 ++ e := by decide
  have row203F : ∀ e : BitVec 5, BitVec.ofNat 6 (0x20 + e.toNat) = 0b1#1 ++ e := by decide
  refine ⟨fun a s => ⟨_, rfl, faulted_undefinedExtended _ a s⟩, fun e a s => ⟨_, rfl, ?_⟩,
    fun e a s => ⟨_, rfl, ?_⟩, fun e a s => ⟨_, rfl, ?_⟩, fun e a s => ⟨_, rfl, ?_⟩,
    fun e a s => ⟨_, rfl, ?_⟩⟩
  · exact row0203 e ▸ faulted_undefinedExtended _ a s
  · exact row0407 e ▸ faulted_undefinedExtended _ a s
  · exact row080F e ▸ faulted_undefinedExtended _ a s
  · exact row101F e ▸ faulted_undefinedExtended _ a s
  · exact row203F e ▸ faulted_undefinedExtended _ a s

end Sys2Proof
end

section
/-!
PROOFS of 41_operands.md and 20_memory.md: every class of operand as source and as destination (R142
to R160), the stack's moves, and the cells of a canonical memory (log 1).
-/

namespace Sys2Proof

open Sys2Proof.Machine Sys2Proof.Claims

/-! ## Memory as data (log 1) -/

namespace Machine.Memory

/-- A byte below every listed address is not listed. -/
theorem readByte_of_wfFrom {lo n : Nat} {m : Memory} (h : wfFrom lo m = true) (hn : n < lo) :
    readByte m n = Config.unlistedByte := by
  induction m generalizing lo with
  | nil => rfl
  | cons p m ih =>
    obtain ⟨k, v⟩ := p
    obtain ⟨hlo, -, -, hm⟩ := wfFrom_cons.mp h
    rw [readByte_cons, if_neg (by omega)]
    exact ih hm (by omega)

theorem le_of_readByte_ne {lo n : Nat} {m : Memory} (h : wfFrom lo m = true)
    (hn : readByte m n ≠ Config.unlistedByte) : lo ≤ n :=
  not_lt.mp fun hlt => hn (readByte_of_wfFrom h hlt)

/-- Of two memories that read alike, neither can list an address below the other's first, so they
list the same first, with the same byte. -/
theorem eq_of_readByte_eq {lo : Nat} {m m' : Memory} (h : wfFrom lo m = true)
    (h' : wfFrom lo m' = true)
    (hread : ∀ n, lo ≤ n → n < Config.imageBytes → readByte m n = readByte m' n) : m = m' := by
  induction m generalizing lo m' with
  | nil =>
    cases m' with
    | nil => rfl
    | cons p' m' =>
      obtain ⟨k', v'⟩ := p'
      obtain ⟨hlo', hk', hv', -⟩ := wfFrom_cons.mp h'
      have hat := hread k' hlo' hk'
      rw [readByte_nil, readByte_cons, if_pos rfl] at hat
      exact absurd hat.symm hv'
  | cons p m ih =>
    obtain ⟨k, v⟩ := p
    obtain ⟨hlo, hk, hv, hm⟩ := wfFrom_cons.mp h
    have hat := hread k hlo hk
    rw [readByte_cons, if_pos rfl] at hat
    cases m' with
    | nil => exact absurd hat hv
    | cons p' m' =>
      obtain ⟨k', v'⟩ := p'
      obtain ⟨hlo', hk', hv', hm'⟩ := wfFrom_cons.mp h'
      have hat' := hread k' hlo' hk'
      rw [readByte_cons k', if_pos rfl] at hat'
      have hle : k' ≤ k :=
        le_of_readByte_ne (wfFrom_cons.mpr ⟨le_rfl, hk', hv', hm'⟩) (hat ▸ hv)
      have hge : k ≤ k' :=
        le_of_readByte_ne (wfFrom_cons.mpr ⟨le_rfl, hk, hv, hm⟩) (hat' ▸ hv')
      obtain rfl : k = k' := le_antisymm hge hle
      rw [readByte_cons, if_pos rfl] at hat
      rw [hat, ih hm hm' fun n hn hlt => ?_]
      have hrest := hread n (by omega) hlt
      rwa [readByte_cons, if_neg (by omega), readByte_cons, if_neg (by omega)] at hrest

theorem wordOfBytes_inj {hi lo hi' lo' : Byte} (h : wordOfBytes hi lo = wordOfBytes hi' lo') :
    hi = hi' ∧ lo = lo' := by
  have hnat := congrArg BitVec.toNat h
  rw [toNat_wordOfBytes, toNat_wordOfBytes] at hnat
  bv_omega

/-- Every byte of the image is one of the two of a cell. -/
theorem readByte_eq_of_readWord_eq {m m' : Memory} (h : ∀ a, m.readWord a = m'.readWord a) {n : Nat}
    (hn : n < Config.imageBytes) : m.readByte n = m'.readByte n := by
  rw [Config.imageBytes] at hn
  have hcell : (BitVec.ofNat 16 (n / 2)).toNat = n / 2 := by
    rw [BitVec.toNat_ofNat]
    omega
  obtain ⟨hhi, hlo⟩ := wordOfBytes_inj (h (BitVec.ofNat 16 (n / 2)))
  rw [hcell] at hhi hlo
  rcases Nat.mod_two_eq_zero_or_one n with heven | hodd
  · rwa [show 2 * (n / 2) = n by omega] at hhi
  · rwa [show 2 * (n / 2) + 1 = n by omega] at hlo

end Machine.Memory

/-- Settles O53: equal cells are equal bytes, and a canonical list is known by its bytes
(`eq_of_readByte_eq`). -/
theorem memoriesThatReadAlikeAreEqual : Obligations.MemoriesThatReadAlikeAreEqual :=
  fun _ _ h h' hread => Memory.eq_of_readByte_eq h h' fun _ _ hn =>
    Memory.readByte_eq_of_readWord_eq hread hn

/-- A canonical memory in which a cell is written with what it holds. -/
theorem Machine.Memory.writeWord_readWord {m : Memory} (h : m.wf = true) (a : Word) :
    m.writeWord a (m.readWord a) = m := by
  refine memoriesThatReadAlikeAreEqual _ _ (wf_writeWord a _ h) h fun a' => ?_
  rw [readWord_writeWord]
  split_ifs with ha
  · rw [ha]
  · rfl

/-! ## Every class of operand, end to end (R142 to R154) -/

/-- Settles O17: each row is SET's meaning, run on its operand. -/
theorem sourceOperandsGiveTheirValues : Obligations.SourceOperandsGiveTheirValues := by
  intro s r q n word
  refine ⟨rfl, rfl, rfl, rfl, rfl, rfl, rfl, rfl, rfl, rfl, rfl, rfl, ?_⟩
  rw [BitVec.ofNat_toNat]
  rfl

/-- Settles O18: each row is SET's meaning, run on its operand. -/
theorem destinationOperandsReceiveTheResult : Obligations.DestinationOperandsReceiveTheResult := by
  intro s q n m v word at1 at2 at2next
  have hv : n.setWidth 16 = v := (BitVec.ofNat_toNat 16 n).symm
  rw [← hv]
  exact ⟨rfl, rfl, rfl, rfl, rfl, rfl, rfl, rfl, rfl, rfl, rfl, rfl, rfl⟩

/-- Settles O19: the second operand finds `pc` and `sp` where the first has left them. -/
theorem operandsAreResolvedFirstThenSecond : Obligations.OperandsAreResolvedFirstThenSecond := by
  intro s
  have hpush : s.sp - 1 - 1 = s.sp - 2 := by bv_omega
  have hpop : s.sp + 1 + 1 = s.sp + 2 := by bv_omega
  have hnext : s.pc + 1 + 1 = s.pc + 2 := by bv_omega
  refine ⟨⟨_, rfl, hnext, rfl⟩, ⟨_, rfl, hpush, ?_⟩, ⟨_, rfl, hpop, rfl⟩⟩
  rw [← hpush]
  rfl

/-- Settles O20: `pc` is read after both operands are resolved (O54), and `PC` itself moves nothing.
-/
theorem pcOperandReadsTheNextInstructionAddress :
    Obligations.PcOperandReadsTheNextInstructionAddress := by
  intro s r op
  obtain ⟨-, hva, -, -⟩ := operandsOfEveryPairAreSampledInOrder .pc op s
  obtain ⟨-, -, hvb, -⟩ := operandsOfEveryPairAreSampledInOrder op .pc s
  refine ⟨?_, ?_, ?_, rfl⟩
  · simpa [place, content, pcMove] using hva
  · simpa [place, content, pcMove] using hvb
  · rfl

/-- Settles O41: a register's value goes into the cell below `sp` and is read out of it again. -/
theorem pushThenPopMovesARegister : Obligations.PushThenPopMovesARegister := by
  intro r q s
  refine ⟨_, _, rfl, rfl, fun q' => ?_, BitVec.sub_add_cancel _ _, rfl, rfl, fun addr => ?_⟩
  · exact (RegFile.get_set _ q _ q').trans
      (if_congr Iff.rfl (Memory.readWord_writeWord_same _ _ _) rfl)
  · exact Memory.readWord_writeWord _ _ _ _

/-- Settles O42: `POP` reads the cell that `PUSH` stands for, and `sp` is moved there and back. -/
theorem setPushPopChangesOnlyCycles : Obligations.SetPushPopChangesOnlyCycles := by
  intro s hwf
  have hexec : exec (.set .push .pop) s = .next
      { s with
        mem := s.mem.writeWord (s.sp - 1) (s.mem.readWord (s.sp - 1))
        sp := s.sp - 1 + 1
        cycles := s.cycles + 1 } := rfl
  rw [hexec, Memory.writeWord_readWord hwf, BitVec.sub_add_cancel]

/-- Settles O44: the store goes to the cell named by `q` before `b` is resolved. -/
theorem storeIsSeenByTheNextFetch : Obligations.StoreIsSeenByTheNextFetch :=
  fun _ _ _ => ⟨_, rfl, Memory.readWord_writeWord_same _ _ _⟩

end Sys2Proof
end

section
/-!
PROOFS about steps and runs: totality, the path of an executed step (40_dispatch.md R112 to R127),
what sets `skipping` (10_state.md R30) and the latch (60_exceptions.md R231 to R237), the bounds of
a step's cost, and runs.
-/

namespace Sys2Proof

open Sys2Proof.Machine Sys2Proof.Claims

/-- Settles O9: every meaning answers `next`, and so does each of the step's three paths. -/
theorem everyStepHasANextState : Obligations.EveryStepHasANextState := by
  have hexec : ∀ (i : Instr) (s : State), ∃ t, exec i s = .next t := by
    intro i s
    cases i <;> exact ⟨_, rfl⟩
  refine ⟨hexec, fun s => ?_⟩
  obtain ⟨-, h⟩ | ⟨-, -, h⟩ | ⟨-, -, h⟩ := step_paths s
  · exact ⟨_, h⟩
  · exact ⟨_, h⟩
  · rw [h]
    exact hexec _ _

/-- Settles O5: the executing path of the step. -/
theorem stepRunsTheDecodedInstruction : Obligations.StepRunsTheDecodedInstruction :=
  fun _ _ hfault hskip hdec => hdec ▸ step_of_not_skipping hfault hskip

/-- Settles O6: the halted path of the step. -/
theorem haltedCoreStepChangesNothing : Obligations.HaltedCoreStepChangesNothing := by
  intro s hfault
  obtain ⟨-, h⟩ | ⟨hnone, -⟩ | ⟨hnone, -⟩ := step_paths s
  · exact h
  all_goals exact absurd hnone hfault

/-! ## What an executed instruction does to memory, the latch and `skipping` -/

namespace Machine

section
variable {i : Instr} {s t : State}

theorem exec_keeps_wf (hwf : s.mem.wf = true) (h : exec i s = .next t) : t.mem.wf = true := by
  cases i with
  | set a b | add a b | sub a b | mul a b | div a b | mod a b | and a b | bor a b | xor a b =>
    cases h
    exact wf_writeResultThenOverflow _ _ _ ((sample_mem a b s).symm ▸ hwf)
  | shl a b | shr a b =>
    cases h
    exact wf_writeOverflowThenResult _ _ _ ((sample_mem a b s).symm ▸ hwf)
  | ife | ifn | ifg | ifb =>
    cases h
    simpa [concludeConditional_eq] using hwf
  | jsr a =>
    rw [exec_jsr] at h
    cases h
    exact Memory.wf_writeWord _ _ hwf
  | undefExt00 | undefExt0203 | undefExt0407 | undefExt080F | undefExt101F | undefExt203F =>
    cases h
    simpa [undefinedExtended_eq] using hwf

/-- The latch is set by the instructions whose word has `f_op` 0 and `f_a` not 1, with that `f_a`
(60_exceptions.md R231), and by no other. -/
theorem exec_fault (h : exec i s = .next t) :
    t.fault =
      if fieldOp i.encodeWord = 0x0#4 ∧ fieldA i.encodeWord ≠ 0x01#6 then
        .undefinedExtendedOpcode (fieldA i.encodeWord) (s.pc - 1)
      else s.fault := by
  have row0203 : ∀ e : BitVec 1, 0b00001#5 ++ e ≠ 0x01#6 := by decide
  have row0407 : ∀ e : BitVec 2, 0b0001#4 ++ e ≠ 0x01#6 := by decide
  have row080F : ∀ e : BitVec 3, 0b001#3 ++ e ≠ 0x01#6 := by decide
  have row101F : ∀ e : BitVec 4, 0b01#2 ++ e ≠ 0x01#6 := by decide
  have row203F : ∀ e : BitVec 5, 0b1#1 ++ e ≠ 0x01#6 := by decide
  cases i with
  | set | add | sub | mul | div | mod | shl | shr | and | bor | xor | jsr =>
    cases h
    simp [Instr.encodeWord]
  | ife | ifn | ifg | ifb =>
    cases h
    simp [Instr.encodeWord, concludeConditional_eq]
  | undefExt00 | undefExt0203 | undefExt0407 | undefExt080F | undefExt101F | undefExt203F =>
    cases h
    simp [Instr.encodeWord, undefinedExtended_eq, row0203, row0407, row080F, row101F, row203F]

/-- A conditional whose condition is false is the only instruction that sets `skipping`. -/
theorem exec_skipping (hskip : s.skipping = false) (h : exec i s = .next t) :
    t.skipping = true ↔
      ∃ a b, conditionFalse i a b (sample a b s).va (sample a b s).vb := by
  cases i with
  | set | add | sub | mul | div | mod | shl | shr | and | bor | xor | jsr =>
    cases h
    simp [conditionFalse, hskip]
  | undefExt00 | undefExt0203 | undefExt0407 | undefExt080F | undefExt101F | undefExt203F =>
    cases h
    simp [conditionFalse, hskip, undefinedExtended_eq]
  | ife a b | ifn a b | ifg a b | ifb a b =>
    cases h
    simp [conditionFalse, hskip, concludeConditional_eq, ifeCondition, ifnCondition, ifgCondition,
      ifbCondition]

end

/-- A conditional is in the basic format, and costs 2 by itself. -/
theorem encodeWord_opcodeCost_of_conditionFalse {a b : Operand} {va vb : Word}
    (h : conditionFalse i a b va vb) : fieldOp i.encodeWord ≠ 0x0#4 ∧ opcodeCost i = 2 := by
  rcases h with ⟨rfl, -⟩ | ⟨rfl, -⟩ | ⟨rfl, -⟩ | ⟨rfl, -⟩ <;>
    simp [Instr.encodeWord, opcodeCost]

end Machine

/-- Settles O36: a skipped step clears `skipping`, an executed one sets it by `exec_skipping`. -/
theorem skippingIsSetExactlyByAFalseConditional :
    Obligations.SkippingIsSetExactlyByAFalseConditional := by
  intro s t hfault hstep
  by_cases hskip : s.skipping = true
  · rw [step_of_skipping hfault hskip] at hstep
    cases hstep
    simp [hskip]
  · rw [Bool.not_eq_true] at hskip
    rw [step_of_not_skipping hfault hskip] at hstep
    rw [and_iff_right hskip]
    exact exec_skipping (s := { s with pc := s.pc + 1 }) hskip hstep

/-- Settles O37: a skipped step keeps the latch, an executed one sets it by `exec_fault`, on the
fetched word itself, since decoding drops no bit of it (O12). -/
theorem faultIsLatchedExactlyByUndefinedExtendedOpcodes :
    Obligations.FaultIsLatchedExactlyByUndefinedExtendedOpcodes := by
  intro s t hfault hstep w
  cases hskip : s.skipping with
  | true =>
    rw [step_of_skipping hfault hskip] at hstep
    cases hstep
    simpa using hfault
  | false =>
    rw [step_of_not_skipping hfault hskip] at hstep
    have hlatch := exec_fault hstep
    rw [encodeWord_decodeWord, BitVec.add_sub_cancel, hfault] at hlatch
    have hop : opField w = 0x0000#16 ↔ fieldOp w = 0x0#4 := by
      rw [opField_eq]
      bv_omega
    have ha : aField w ≠ 0x0001#16 ↔ fieldA w ≠ 0x01#6 := by
      rw [aField_eq]
      bv_omega
    have hcode : (aField w).setWidth 6 = fieldA w := by
      rw [aField_eq]
      simp
    rw [hlatch, hcode]
    exact if_congr (by rw [hop, ha, and_iff_right rfl]) rfl rfl

/-! ## The cost of a step -/

theorem Claims.cost_le_one (op : Operand) : cost op ≤ 1 := by
  cases op <;> simp [cost]

theorem sum_cost_operands_le (i : Instr) : (i.operands.map cost).sum ≤ 2 := by
  have hsum := List.sum_le_card_nsmul (i.operands.map cost) 1 (by simp [cost_le_one])
  have hlen := Instr.operands_length_le i
  simp only [List.length_map, smul_eq_mul, mul_one] at hsum
  omega

theorem opcodeCost_le_three (i : Instr) : opcodeCost i ≤ 3 := by
  cases i <;> simp [opcodeCost]

/-- Settles O39: by the cost table (O38), an opcode is at most 3 and its two operands 2; the 1 more
of a false condition falls on an opcode of 2. -/
theorem cyclesNeverDecrease : Obligations.CyclesNeverDecrease := by
  intro s t hstep
  by_cases hfault : s.fault = .none
  · have hcost := stepCostsWhatTheTableSays s t hfault hstep
    have hoperands := sum_cost_operands_le (decodeWord (s.mem.readWord s.pc))
    have hopcode := opcodeCost_le_three (decodeWord (s.mem.readWord s.pc))
    cases hset : t.skipping with
    | false =>
      simp only [hset, Bool.false_eq_true, if_false] at hcost
      split_ifs at hcost <;> omega
    | true =>
      obtain ⟨-, a, b, hfalse⟩ := (skippingIsSetExactlyByAFalseConditional s t hfault hstep).mp hset
      obtain ⟨-, htwo⟩ := encodeWord_opcodeCost_of_conditionFalse hfalse
      simp only [hset, if_true, htwo] at hcost
      split_ifs at hcost <;> omega
  · rw [haltedCoreStepChangesNothing s hfault] at hstep
    cases hstep
    omega

/-! ## Runs (60_exceptions.md R237) -/

theorem run_add {j : Nat} {s u : State} (k : Nat) (h : core.run j s = .next u) :
    core.run (j + k) s = core.run k u := by
  induction j generalizing s with
  | zero =>
    cases h
    rw [Nat.zero_add]
  | succ j ih =>
    obtain ⟨t, ht⟩ := everyStepHasANextState.2 s
    rw [run_succ_of_next core ht] at h
    rw [Nat.add_right_comm, run_succ_of_next core ht, ih h]

theorem run_of_fault {s : State} (k : Nat) (h : s.fault ≠ .none) : core.run k s = .next s := by
  induction k with
  | zero => rfl
  | succ k ih => rw [run_succ_of_next core (haltedCoreStepChangesNothing s h), ih]

/-- Settles O46: a run is its first `j` steps and then the others, which change nothing once a fault
is latched. -/
theorem safeRunLatchesNoFaultOnTheWay : Obligations.SafeRunLatchesNoFaultOnTheWay := by
  intro j k s t u hsafe hrun
  obtain ⟨hall, hnone⟩ := hsafe
  rw [run_add k hrun] at hall
  refine ⟨?_, hall, hnone⟩
  by_contra hfault
  rw [run_of_fault k hfault] at hall
  cases hall
  exact hfault hnone

/-! ## Two single steps -/

theorem Machine.State.writeOverflow_eq (s : State) (ov : Option Word) :
    s.writeOverflow ov = { s with o := ov.getD s.o } := by cases ov <;> rfl

/-- Settles O43: `PC` is sampled one past the word and 1 is taken from it again; that borrows
exactly where the sampled address is 0. -/
theorem subPcOneJumpsToItself : Obligations.SubPcOneJumpsToItself := by
  intro s hfault hskip hword
  have hdec : decodeWord 0x85C3#16 = .sub .pc (.short 1) := by decide
  have hexec : exec (.sub .pc (.short 1)) { s with pc := s.pc + 1 } = .next
      { s with
        pc := trunc16Int (((s.pc + 1).toNat : Int) - ((1#16).toNat : Int))
        o := (subOverflow (s.pc + 1) 1#16).getD s.o
        cycles := s.cycles + 2 } := by
    simp only [exec, execSub, writeResultThenOverflow, State.writeOverflow_eq]
    rfl
  have hborrow : s.pc + 1 < 1#16 ↔ s.pc = 0xFFFF#16 := by bv_omega
  rw [step_of_not_skipping hfault hskip, hword, hdec, hexec, trunc16Int_sub, subOverflow_eq]
  simp only [hborrow]
  split_ifs
  · simp
  · simp

/-- Settles O45: the word 0 at address 0 is an undefined extended opcode. -/
theorem unloadedCoreFaultsOnItsFirstStep : Obligations.UnloadedCoreFaultsOnItsFirstStep := by
  unfold Obligations.UnloadedCoreFaultsOnItsFirstStep
  rfl

end Sys2Proof
end

section
/-!
PROOFS about the invariant and the host: reset (10_state.md section 7), the invariant of every step
and request (R33), and what a request changes (60_exceptions.md R246 to R248,
70_reset_and_hazards.md R265).
-/

namespace Sys2Proof

open Sys2Proof.Machine Sys2Proof.Claims

/-- Settles O1: the values of State.reset, row by row. -/
theorem resetStateIsAsTheSpecSays : Obligations.ResetStateIsAsTheSpecSays :=
  ⟨RegFile.get_reset, rfl, rfl, rfl, Memory.readWord_nil, rfl, rfl, rfl⟩

/-- Settles O2: the empty memory is canonical, and no fault is latched. -/
theorem resetMeetsTheInvariant : Obligations.ResetMeetsTheInvariant :=
  ⟨Memory.wf_nil, rfl, fun _ => rfl⟩

/-- Settles O3: only an executed instruction changes memory or the latch. It writes whole cells, the
code it latches is not 1, and no instruction both latches a fault and sets `skipping`, since the one
is of the extended format and the other is not. -/
theorem stepKeepsTheInvariant : Obligations.StepKeepsTheInvariant := by
  intro s t hinv hstep
  obtain ⟨hwf, hlegal, hnoskip⟩ := hinv
  obtain ⟨-, h⟩ | ⟨hfault, -, h⟩ | ⟨hfault, hskip, h⟩ := step_paths s
  · rw [h] at hstep
    cases hstep
    exact ⟨hwf, hlegal, hnoskip⟩
  · rw [h, skipInstr_eq] at hstep
    cases hstep
    exact ⟨hwf, hlegal, fun _ => rfl⟩
  · rw [h] at hstep
    have hlatch := exec_fault hstep
    refine ⟨exec_keeps_wf (s := s.advancePc) hwf hstep, ?_, fun hlatched => ?_⟩
    · rw [hlatch]
      split_ifs with hundefined
      · exact decide_eq_true hundefined.2
      · exact hlegal
    · rw [Bool.eq_false_iff]
      intro hset
      obtain ⟨a, b, hfalse⟩ := (exec_skipping (s := s.advancePc) hskip hstep).mp hset
      obtain ⟨hbasic, -⟩ := encodeWord_opcodeCost_of_conditionFalse hfalse
      rw [if_neg fun hundefined => hbasic hundefined.1] at hlatch
      exact hlatched (hlatch.trans hfault)

/-! ## The host's requests -/

/-- Settles O52: the step's next state is the request's. -/
theorem stepRequestStepsAndReportsTheLatch : Obligations.StepRequestStepsAndReportsTheLatch := by
  intro s t hstep
  simp only [serve, hstep]

/-- Settles O49: a short stream changes nothing, a long one is a new memory. -/
theorem loadChangesMemoryOnly : Obligations.LoadChangesMemoryOnly := by
  intro image s
  rcases lt_or_ge image.length Config.imageBytes with hshort | hlong
  · rw [serve_loadImage_of_short s hshort]
  · rw [serve_loadImage_of_long s hlong]

theorem wf_serve_loadImage (image : List Byte) {s : State} (h : s.mem.wf = true) :
    (serve (.loadImage image) s).2.mem.wf = true := by
  rcases lt_or_ge image.length Config.imageBytes with hshort | hlong
  · rwa [serve_loadImage_of_short s hshort]
  · rw [serve_loadImage_of_long s hlong]
    exact Memory.wfFrom_ofBytesFrom 0 _ (by simp)

/-- Settles O4: a request reads, or writes one register or cell, or replaces memory by a canonical
one, or resets (O2), or steps (O3). -/
theorem hostRequestKeepsTheInvariant : Obligations.HostRequestKeepsTheInvariant := by
  intro q s hinv
  cases q with
  | reset => exact resetMeetsTheInvariant
  | loadImage image =>
    rw [loadChangesMemoryOnly]
    exact ⟨wf_serve_loadImage image hinv.memory, hinv.latch, hinv.noSkipWhenFaulted⟩
  | step =>
    obtain ⟨t, hstep⟩ := everyStepHasANextState.2 s
    rw [stepRequestStepsAndReportsTheLatch s t hstep]
    exact stepKeepsTheInvariant s t hinv hstep
  | writeMem addr v =>
    exact ⟨Memory.wf_writeWord addr (trunc16 v) hinv.memory, hinv.latch, hinv.noSkipWhenFaulted⟩
  | _ => exact ⟨hinv.memory, hinv.latch, hinv.noSkipWhenFaulted⟩

/-- Settles O50: a load changes memory only (O49); the other requests read, or write one register or
cell. -/
theorem hostSetsNeitherSkippingNorCyclesNorFault :
    Obligations.HostSetsNeitherSkippingNorCyclesNorFault := by
  intro q s hstep hreset
  cases q with
  | reset => exact absurd rfl hreset
  | step => exact absurd rfl hstep
  | loadImage image =>
    rw [loadChangesMemoryOnly]
    exact ⟨rfl, rfl, rfl⟩
  | _ => exact ⟨rfl, rfl, rfl⟩

/-- Settles O51: a read after a write, with the written number truncated. -/
theorem hostWritesAreTruncatedAndReadBack : Obligations.HostWritesAreTruncatedAndReadBack := by
  intro s v kept
  have hkept : HostReply.word (trunc16 v) = kept :=
    congrArg _ (BitVec.eq_of_toNat_eq (by simp [trunc16]))
  refine ⟨fun r q => ?_, fun a a' => ?_, hkept, hkept, hkept⟩
  · rw [← hkept, ← apply_ite HostReply.word]
    exact congrArg _ (RegFile.get_set _ _ _ _)
  · rw [← hkept, ← apply_ite HostReply.word]
    exact congrArg _ (Memory.readWord_writeWord _ _ _ _)

end Sys2Proof
end
